-- ==== Sys2Proof/Word.lean ====
section
/-! DEFINITION. The word types of the engine: registers and memory bytes are 8 bits, I, pc and stack slots 16 bits,
addresses in an instruction 12 bits, register numbers and nibbles 4 bits (00_scope.md R6 to R8). All are unsigned. -/

namespace Sys2Proof

/-- A memory byte, a V register or a timer (00_scope.md R6: V_WIDTH, TIMER_WIDTH). -/
abbrev Byte := BitVec 8

/-- A 16-bit value: I, pc, a stack slot, an instruction word (00_scope.md R6, R7). -/
abbrev Word := BitVec 16

/-- The 12-bit immediate `nnn` of an instruction (30_encoding.md R63). -/
abbrev Addr := BitVec 12

/-- A 4-bit field of an instruction (glossary of 00_scope.md: "a 4-bit field of a byte or word"). -/
abbrev Nibble := BitVec 4

/-- A register number 0 to 15, in range by construction (30_encoding.md R63). -/
abbrev RegIdx := BitVec 4

/-- The number of VF, the general register that is also the flag (10_state.md R18). -/
abbrev vf : RegIdx := 0xF#4

end Sys2Proof
end

