-- ==== Sys2Proof/Machine/Flags.lean ====
section
/-! DEFINITION. Every value that an instruction writes to VF as its flag (the table of 10_state.md R19). -/

namespace Sys2Proof.Machine

/-- A comparison's result as a register value, 1 or 0 (00_scope.md R15). -/
def flagByte (c : Bool) : Byte := if c then 1#8 else 0#8

/-- LD, OR, AND and XOR between registers: VF is cleared (41_arithmetic_logic.md R90 to R93). -/
def clearedFlag : Byte := 0#8

/-- ADD Vx, Vy: 1 if the 9-bit sum exceeds 255 (41_arithmetic_logic.md R94). -/
def carryFlag (a b : Byte) : Byte := flagByte (decide (255 < a.toNat + b.toNat))

/-- SUB and SUBN: 1 if the subtrahend is STRICTLY below the minuend; equal operands give 0 (41_arithmetic_logic.md
R95, R97; 90_conflicts.md C2). -/
def noBorrowFlag (minuend subtrahend : Byte) : Byte := flagByte (decide (subtrahend.toNat < minuend.toNat))

/-- SHR: bit 0 of the ORIGINAL V[x] (41_arithmetic_logic.md R96; 90_conflicts.md C8). -/
def lowBitFlag (vx : Byte) : Byte := vx &&& 0x01#8

/-- SHL: bit 7 of the ORIGINAL V[x] (41_arithmetic_logic.md R98; 90_conflicts.md C8). -/
def highBitFlag (vx : Byte) : Byte := (vx >>> 7) &&& 0x01#8

/-- DRW: 1 if any lit cell was turned off (43_display.md R110). -/
def collisionFlag (hit : Bool) : Byte := flagByte hit

end Sys2Proof.Machine
end

