-- ==== Sys2Proof/Syntax.lean ====
section
/-! DEFINITION. The instructions: one constructor per row of spec/opcode_table.json (30_encoding.md R72), with the
fields of R63 it uses. Bits that the decoder does not examine are kept as a field (`hi` of CLS and RET, `lo` of the two
register skips), and NOP keeps its whole word, so that an instruction determines its word (log entry 6). -/

namespace Sys2Proof

inductive Instr where
  /-- 00E0 CLS; `hi` is bits 11:8, not examined (R67). -/
  | cls (hi : Nibble)
  /-- 00EE RET; `hi` is bits 11:8, not examined (R67). -/
  | ret (hi : Nibble)
  /-- 1nnn JP nnn. -/
  | jp (nnn : Addr)
  /-- 2nnn CALL nnn. -/
  | call (nnn : Addr)
  /-- 3xkk SE Vx, kk. -/
  | seVxKk (x : RegIdx) (kk : Byte)
  /-- 4xkk SNE Vx, kk. -/
  | sneVxKk (x : RegIdx) (kk : Byte)
  /-- 5xy0 SE Vx, Vy; `lo` is bits 3:0, not examined (R70). -/
  | seVxVy (x y : RegIdx) (lo : Nibble)
  /-- 6xkk LD Vx, kk. -/
  | ldVxKk (x : RegIdx) (kk : Byte)
  /-- 7xkk ADD Vx, kk. -/
  | addVxKk (x : RegIdx) (kk : Byte)
  /-- 8xy0 LD Vx, Vy. -/
  | ldVxVy (x y : RegIdx)
  /-- 8xy1 OR Vx, Vy. -/
  | orVxVy (x y : RegIdx)
  /-- 8xy2 AND Vx, Vy. -/
  | andVxVy (x y : RegIdx)
  /-- 8xy3 XOR Vx, Vy. -/
  | xorVxVy (x y : RegIdx)
  /-- 8xy4 ADD Vx, Vy. -/
  | addVxVy (x y : RegIdx)
  /-- 8xy5 SUB Vx, Vy. -/
  | subVxVy (x y : RegIdx)
  /-- 8xy6 SHR Vx, Vy. -/
  | shrVxVy (x y : RegIdx)
  /-- 8xy7 SUBN Vx, Vy. -/
  | subnVxVy (x y : RegIdx)
  /-- 8xyE SHL Vx, Vy. -/
  | shlVxVy (x y : RegIdx)
  /-- 9xy0 SNE Vx, Vy; `lo` is bits 3:0, not examined (R70). -/
  | sneVxVy (x y : RegIdx) (lo : Nibble)
  /-- Annn LD I, nnn. -/
  | ldINnn (nnn : Addr)
  /-- Bnnn JP V0, nnn. -/
  | jpV0Nnn (nnn : Addr)
  /-- Cxkk RND Vx, kk. -/
  | rndVxKk (x : RegIdx) (kk : Byte)
  /-- Dxyn DRW Vx, Vy, n. -/
  | drw (x y : RegIdx) (n : Nibble)
  /-- Ex9E SKP Vx. -/
  | skpVx (x : RegIdx)
  /-- ExA1 SKNP Vx. -/
  | sknpVx (x : RegIdx)
  /-- Fx07 LD Vx, DT. -/
  | ldVxDt (x : RegIdx)
  /-- Fx0A LD Vx, K. -/
  | ldVxK (x : RegIdx)
  /-- Fx15 LD DT, Vx. -/
  | ldDtVx (x : RegIdx)
  /-- Fx18 LD ST, Vx. -/
  | ldStVx (x : RegIdx)
  /-- Fx1E ADD I, Vx. -/
  | addIVx (x : RegIdx)
  /-- Fx29 LD F, Vx. -/
  | ldFVx (x : RegIdx)
  /-- Fx33 LD B, Vx. -/
  | ldBVx (x : RegIdx)
  /-- Fx55 LD [I], Vx. -/
  | ldMemVx (x : RegIdx)
  /-- Fx65 LD Vx, [I]. -/
  | ldVxMem (x : RegIdx)
  /-- Any word of the no-op space (R73), kept whole. -/
  | nop (w : Word)
  deriving DecidableEq, Repr

end Sys2Proof
end

