-- ==== Sys2Proof/WellFormed.lean ====
section
/-! DEFINITION. Which terms of `Instr` are instructions of the machine. Every register number and immediate is in range
by its type (30_encoding.md R63); the one check is that a NOP carries a word of the no-op space (R73). -/

namespace Sys2Proof

/-- The no-op space, class by class, as 30_encoding.md R73 lists it: class 0x0 words whose low byte is neither 0xE0 nor
0xEE, class 0x8 words whose low nibble is 0x8 to 0xD or 0xF, class 0xE words whose low byte is neither 0x9E nor 0xA1,
class 0xF words whose low byte is none of the nine of R69. -/
def isNopWord (w : Word) : Bool :=
  let cls := (w.extractLsb' 12 4).toNat
  let low := (w.extractLsb' 0 8).toNat
  let nib := (w.extractLsb' 0 4).toNat
  (cls == 0x0 && low != 0xE0 && low != 0xEE)
    || (cls == 0x8 && ((0x8 ≤ nib && nib ≤ 0xD) || nib == 0xF))
    || (cls == 0xE && low != 0x9E && low != 0xA1)
    || (cls == 0xF && !([0x07, 0x0A, 0x15, 0x18, 0x1E, 0x29, 0x33, 0x55, 0x65].contains low))

/-- `i` is an instruction some word encodes. -/
def Instr.wf : Instr → Bool
  | .nop w => isNopWord w
  | .cls _ | .ret _ | .jp _ | .call _ | .seVxKk _ _ | .sneVxKk _ _ | .seVxVy _ _ _ | .ldVxKk _ _ | .addVxKk _ _
  | .ldVxVy _ _ | .orVxVy _ _ | .andVxVy _ _ | .xorVxVy _ _ | .addVxVy _ _ | .subVxVy _ _ | .shrVxVy _ _
  | .subnVxVy _ _ | .shlVxVy _ _ | .sneVxVy _ _ _ | .ldINnn _ | .jpV0Nnn _ | .rndVxKk _ _ | .drw _ _ _ | .skpVx _
  | .sknpVx _ | .ldVxDt _ | .ldVxK _ | .ldDtVx _ | .ldStVx _ | .addIVx _ | .ldFVx _ | .ldBVx _ | .ldMemVx _
  | .ldVxMem _ => true

end Sys2Proof
end

