-- ==== Sys2Proof/Decode.lean ====
section
/-! DEFINITION. From words to instructions and back: the fields of 30_encoding.md R63, the two-level dispatch of R66 to
R71, the byte order of 20_memory.md R47, and the encoder, written from the same table (R72). The opcode values are the
spec's decision D18, from general knowledge (log entry 5). -/

namespace Sys2Proof

/-- `msb = W & 0xF000` (R63). -/
def fieldMsb (w : Word) : Word := w &&& 0xF000#16

/-- The class W[15:12] (R62, R66). -/
def fieldClass (w : Word) : Nibble := w.extractLsb' 12 4

/-- `x`, W[11:8] (R63). -/
def fieldX (w : Word) : RegIdx := w.extractLsb' 8 4

/-- `y`, W[7:4] (R63). -/
def fieldY (w : Word) : RegIdx := w.extractLsb' 4 4

/-- `n`, W[3:0] (R63), the sub-selector of class 8 (R68). -/
def fieldN (w : Word) : Nibble := w.extractLsb' 0 4

/-- `kk`, W[7:0] (R63), the sub-selector of classes 0, E and F (R67, R69). -/
def fieldKk (w : Word) : Byte := w.extractLsb' 0 8

/-- `nnn`, W[11:0] (R63). -/
def fieldNnn (w : Word) : Addr := w.extractLsb' 0 12

/-- Class 0x0: the low byte selects, bits 11:8 are not examined (R67). -/
def decodeClass0 (w : Word) : Instr :=
  match (fieldKk w).toNat with
  | 0xE0 => .cls (fieldX w)
  | 0xEE => .ret (fieldX w)
  | _ => .nop w

/-- Class 0x8: the low nibble selects (R68). -/
def decodeClass8 (w : Word) : Instr :=
  match (fieldN w).toNat with
  | 0x0 => .ldVxVy (fieldX w) (fieldY w)
  | 0x1 => .orVxVy (fieldX w) (fieldY w)
  | 0x2 => .andVxVy (fieldX w) (fieldY w)
  | 0x3 => .xorVxVy (fieldX w) (fieldY w)
  | 0x4 => .addVxVy (fieldX w) (fieldY w)
  | 0x5 => .subVxVy (fieldX w) (fieldY w)
  | 0x6 => .shrVxVy (fieldX w) (fieldY w)
  | 0x7 => .subnVxVy (fieldX w) (fieldY w)
  | 0xE => .shlVxVy (fieldX w) (fieldY w)
  | _ => .nop w

/-- Class 0xE: the low byte selects (R69). -/
def decodeClassE (w : Word) : Instr :=
  match (fieldKk w).toNat with
  | 0x9E => .skpVx (fieldX w)
  | 0xA1 => .sknpVx (fieldX w)
  | _ => .nop w

/-- Class 0xF: the low byte selects (R69). -/
def decodeClassF (w : Word) : Instr :=
  match (fieldKk w).toNat with
  | 0x07 => .ldVxDt (fieldX w)
  | 0x0A => .ldVxK (fieldX w)
  | 0x15 => .ldDtVx (fieldX w)
  | 0x18 => .ldStVx (fieldX w)
  | 0x1E => .addIVx (fieldX w)
  | 0x29 => .ldFVx (fieldX w)
  | 0x33 => .ldBVx (fieldX w)
  | 0x55 => .ldMemVx (fieldX w)
  | 0x65 => .ldVxMem (fieldX w)
  | _ => .nop w

/-- Decode, total on words (R66 to R71, R73: "every 16-bit word decodes to one instruction of rule R72 or to the
no-op"). The last arm is class 0xF, the only nibble left. -/
def decode (w : Word) : Instr :=
  match (fieldClass w).toNat with
  | 0x0 => decodeClass0 w
  | 0x1 => .jp (fieldNnn w)
  | 0x2 => .call (fieldNnn w)
  | 0x3 => .seVxKk (fieldX w) (fieldKk w)
  | 0x4 => .sneVxKk (fieldX w) (fieldKk w)
  | 0x5 => .seVxVy (fieldX w) (fieldY w) (fieldN w)
  | 0x6 => .ldVxKk (fieldX w) (fieldKk w)
  | 0x7 => .addVxKk (fieldX w) (fieldKk w)
  | 0x8 => decodeClass8 w
  | 0x9 => .sneVxVy (fieldX w) (fieldY w) (fieldN w)
  | 0xA => .ldINnn (fieldNnn w)
  | 0xB => .jpV0Nnn (fieldNnn w)
  | 0xC => .rndVxKk (fieldX w) (fieldKk w)
  | 0xD => .drw (fieldX w) (fieldY w) (fieldN w)
  | 0xE => decodeClassE w
  | _ => decodeClassF w

/-- Two bytes as an instruction word, big-endian: the byte at the lower address is bits 15:8 (20_memory.md R47). -/
def wordOfBytes (first second : Byte) : Word := first ++ second

/-- The bytes of a word in memory order (20_memory.md R47). -/
def bytesOfWord (w : Word) : List Byte := [w.extractLsb' 8 8, w.extractLsb' 0 8]

/-- Why bytes are no instruction. -/
inductive DecodeError where
  /-- Fewer than the 2 bytes every instruction has (R61). -/
  | truncated
  deriving DecidableEq, Repr

/-- Decode the first instruction of a byte sequence and give the rest: exactly 2 bytes are consumed (R61). -/
def decodeBytes : List Byte → Except DecodeError (Instr × List Byte)
  | first :: second :: rest => .ok (decode (wordOfBytes first second), rest)
  | [_] | [] => .error .truncated

/-- A format A word: class and 12-bit address (R62). -/
def formatA (cls : Nibble) (nnn : Addr) : Word := cls ++ nnn

/-- A format XK word, and, with a sub-selector as its byte, a format N or X word (R62). -/
def formatXK (cls : Nibble) (x : RegIdx) (kk : Byte) : Word := cls ++ x ++ kk

/-- A format XY or XYN word (R62). -/
def formatXYN (cls : Nibble) (x y : RegIdx) (n : Nibble) : Word := cls ++ x ++ y ++ n

/-- The word of an instruction, from the opcode map (R72). -/
def encode : Instr → Word
  | .cls hi => formatXK 0x0#4 hi 0xE0#8
  | .ret hi => formatXK 0x0#4 hi 0xEE#8
  | .jp nnn => formatA 0x1#4 nnn
  | .call nnn => formatA 0x2#4 nnn
  | .seVxKk x kk => formatXK 0x3#4 x kk
  | .sneVxKk x kk => formatXK 0x4#4 x kk
  | .seVxVy x y lo => formatXYN 0x5#4 x y lo
  | .ldVxKk x kk => formatXK 0x6#4 x kk
  | .addVxKk x kk => formatXK 0x7#4 x kk
  | .ldVxVy x y => formatXYN 0x8#4 x y 0x0#4
  | .orVxVy x y => formatXYN 0x8#4 x y 0x1#4
  | .andVxVy x y => formatXYN 0x8#4 x y 0x2#4
  | .xorVxVy x y => formatXYN 0x8#4 x y 0x3#4
  | .addVxVy x y => formatXYN 0x8#4 x y 0x4#4
  | .subVxVy x y => formatXYN 0x8#4 x y 0x5#4
  | .shrVxVy x y => formatXYN 0x8#4 x y 0x6#4
  | .subnVxVy x y => formatXYN 0x8#4 x y 0x7#4
  | .shlVxVy x y => formatXYN 0x8#4 x y 0xE#4
  | .sneVxVy x y lo => formatXYN 0x9#4 x y lo
  | .ldINnn nnn => formatA 0xA#4 nnn
  | .jpV0Nnn nnn => formatA 0xB#4 nnn
  | .rndVxKk x kk => formatXK 0xC#4 x kk
  | .drw x y n => formatXYN 0xD#4 x y n
  | .skpVx x => formatXK 0xE#4 x 0x9E#8
  | .sknpVx x => formatXK 0xE#4 x 0xA1#8
  | .ldVxDt x => formatXK 0xF#4 x 0x07#8
  | .ldVxK x => formatXK 0xF#4 x 0x0A#8
  | .ldDtVx x => formatXK 0xF#4 x 0x15#8
  | .ldStVx x => formatXK 0xF#4 x 0x18#8
  | .addIVx x => formatXK 0xF#4 x 0x1E#8
  | .ldFVx x => formatXK 0xF#4 x 0x29#8
  | .ldBVx x => formatXK 0xF#4 x 0x33#8
  | .ldMemVx x => formatXK 0xF#4 x 0x55#8
  | .ldVxMem x => formatXK 0xF#4 x 0x65#8
  | .nop w => w

/-- The two bytes of an instruction in memory order. -/
def encodeBytes (i : Instr) : List Byte := bytesOfWord (encode i)

/-- The first `nbits` bits of `w`, numbered as spec/opcode_table.json numbers them, as one instruction word; the bits
above are 0. -/
def tableWord (nbits w : Nat) : Word := BitVec.ofNat 16 (w % 2 ^ nbits)

/-- The instruction the decoder reads from a table row's word, laid out in memory order. -/
def decodeTableWord (nbits w : Nat) : Option Instr :=
  match decodeBytes (bytesOfWord (tableWord nbits w)) with
  | .ok (i, _) => some i
  | .error _ => none

end Sys2Proof
end

