-- ==== Sys2Proof/Config.lean ====
section
/-! DEFINITION. What is fixed for the machine: the sizes of 00_scope.md R6, and the one free value the spec leaves to
the environment, the random input. The font bytes are `Machine.fontData` (Machine/Memory.lean). -/

namespace Sys2Proof

/-- MEM_SIZE: 4096 bytes, addresses 0x000 to 0xFFF (00_scope.md R6, 20_memory.md R45). -/
@[simp] abbrev Config.memSize : Nat := 0x1000

/-- PROGRAM_BASE and PC_RESET: a ROM image starts at 0x200 and so does pc (00_scope.md R6, 70_reset_and_hazards.md R138). -/
@[simp] abbrev Config.programBase : Nat := 0x200

/-- The longest ROM image LOAD takes: 0x1000 - 0x200 bytes (10_state.md R39). -/
@[simp] abbrev Config.maxImage : Nat := 3584

/-- RANDOM_BYTE: the byte the environment supplies to the `n`-th execution of RND since reset (00_scope.md R14,
10_state.md R42: "a free draw of the environment"). A FREE VALUE: it has no body, so whatever is proved holds for
every sequence of random inputs (log entry 2). -/
opaque Config.randomByte (n : Nat) : Byte

end Sys2Proof
end

