-- ==== Sys2Proof/Machine/Memory.lean ====
section
/-! DEFINITION. Memory: 4096 bytes (10_state.md R31, 20_memory.md R45), held as the list of the bytes that differ from
their reset contents, in one canonical form; byte and block accesses, and the bounds check of 20_memory.md R49. -/

namespace Sys2Proof.Machine

/-- FONT_DATA: 16 glyphs of 5 bytes, glyph g at 0x000 + 5g (20_memory.md R46, 10_state.md R43). The bytes are the
parameter's default (93_implementation_defined.md G4). UNVERIFIED (the spec's general knowledge), unsafe: log entry 3. -/
def fontData : List Byte :=
  [0xF0#8, 0x90#8, 0x90#8, 0x90#8, 0xF0#8] ++ -- 0
  [0x20#8, 0x60#8, 0x20#8, 0x20#8, 0x70#8] ++ -- 1
  [0xF0#8, 0x10#8, 0xF0#8, 0x80#8, 0xF0#8] ++ -- 2
  [0xF0#8, 0x10#8, 0xF0#8, 0x10#8, 0xF0#8] ++ -- 3
  [0x90#8, 0x90#8, 0xF0#8, 0x10#8, 0x10#8] ++ -- 4
  [0xF0#8, 0x80#8, 0xF0#8, 0x10#8, 0xF0#8] ++ -- 5
  [0xF0#8, 0x80#8, 0xF0#8, 0x90#8, 0xF0#8] ++ -- 6
  [0xF0#8, 0x10#8, 0x20#8, 0x40#8, 0x40#8] ++ -- 7
  [0xF0#8, 0x90#8, 0xF0#8, 0x90#8, 0xF0#8] ++ -- 8
  [0xF0#8, 0x90#8, 0xF0#8, 0x10#8, 0xF0#8] ++ -- 9
  [0xF0#8, 0x90#8, 0xF0#8, 0x90#8, 0x90#8] ++ -- A
  [0xE0#8, 0x90#8, 0xE0#8, 0x90#8, 0xE0#8] ++ -- B
  [0xF0#8, 0x80#8, 0x80#8, 0x80#8, 0xF0#8] ++ -- C
  [0xE0#8, 0x90#8, 0x90#8, 0x90#8, 0xE0#8] ++ -- D
  [0xF0#8, 0x80#8, 0xF0#8, 0x80#8, 0xF0#8] ++ -- E
  [0xF0#8, 0x80#8, 0xF0#8, 0x80#8, 0x80#8]    -- F

/-- What an address holds after RESET, and what an unlisted address reads as: the font from 0x000 (FONT_BASE), 0x00
elsewhere (10_state.md R43, 70_reset_and_hazards.md R137). Log entry 4. -/
def initialByte (a : Nat) : Byte := fontData.getD a 0x00#8

/-- Memory contents: the listed bytes, over the reset contents. -/
abbrev Memory := List Host.Cell

/-- The canonical form from address `lo` on: addresses strictly rising from `lo`, inside the 4096 bytes, and no entry
equal to what its address reads as unlisted. -/
def Memory.wfFrom : Nat → Memory → Bool
  | _, [] => true
  | lo, (a, b) :: rest =>
    decide (lo ≤ a) && decide (a < Config.memSize) && decide (b ≠ initialByte a) && Memory.wfFrom (a + 1) rest

/-- The canonical form: equal contents are equal lists. -/
def Memory.wf (m : Memory) : Bool := Memory.wfFrom 0 m

/-- The byte at address `a`: "a read returns the byte last written and changes nothing" (20_memory.md R51). -/
def Memory.read : Memory → Nat → Byte
  | [], a => initialByte a
  | (k, b) :: rest, a => if k = a then b else Memory.read rest a

/-- One entry, or none where the byte is what the address reads as unlisted. -/
def Memory.entry (a : Nat) (b : Byte) : Memory := if b = initialByte a then [] else [(a, b)]

/-- Store `b` at `a` (00_scope.md R11, MemWrite of one byte), keeping the canonical form. -/
def Memory.write : Memory → Nat → Byte → Memory
  | [], a, b => Memory.entry a b
  | (k, c) :: rest, a, b =>
    if a < k then Memory.entry a b ++ (k, c) :: rest
    else if a = k then Memory.entry a b ++ rest
    else (k, c) :: Memory.write rest a b

/-- Store the bytes at `a`, `a + 1`, … in increasing order (42_index_memory.md R107). -/
def Memory.writeBytes : Memory → Nat → List Byte → Memory
  | m, _, [] => m
  | m, a, b :: bs => Memory.writeBytes (m.write a b) (a + 1) bs

/-- The `n` bytes at `a` to `a + n - 1` (00_scope.md R11, MemRead). -/
def Memory.readBytes (m : Memory) (a n : Nat) : List Byte := (List.range n).map fun k => m.read (a + k)

/-- The bounds check of an access to the `n` bytes from `base`: the lowest byte address above 0xFFF the access would
touch, if there is one. Addresses are unbounded integers, with no wrap (20_memory.md R49, 00_scope.md R11). -/
def firstOutOfRange (base n : Nat) : Option Nat :=
  if 0 < n ∧ 0xFFF < base + (n - 1) then some (max base 0x1000) else none

end Sys2Proof.Machine
end

