-- ==== Sys2Proof/Machine/State.lean ====
section
/-! DEFINITION. All the state the spec gives the machine (10_state.md), as plain data; the reasons a step could stop
with, of which this hardware has none; and the state after RESET (10_state.md R43). -/

namespace Sys2Proof.Machine

/-- The frame buffer: 32 rows of 64 cells, `fb[r][c]`, row 0 on top, column 0 leftmost (10_state.md R25). -/
abbrev Screen := Vector (Vector Bool 64) 32

/-- Every cell unlit. -/
def Screen.clear : Screen := Vector.replicate 32 (Vector.replicate 64 false)

/-- The causes of a fault (60_exceptions.md R117). A fault of the spec is an ENTRY to the FAULTED state, so a next
state; its causes are data recorded in `faultCode`. -/
inductive FaultCause where
  /-- CALL with SP = 16 (R118). -/
  | stackOverflow
  /-- RET with SP = 0 (R119). -/
  | stackUnderflow
  /-- A byte address above 0xFFF (R120). -/
  | memoryAccess
  /-- A key index above 0xF (R121). -/
  | keyIndex
  deriving DecidableEq, Repr

/-- The block's two states (10_state.md R30). -/
inductive Sequencer where
  /-- STEP executes one instruction. -/
  | run
  /-- STEP has no effect. -/
  | faulted
  deriving DecidableEq, Repr

/-- The architectural state, 10_state.md R17 to R31. -/
structure State where
  /-- V0 to VF, 8 bits each (R17, R18). -/
  v : Vector Byte 16
  /-- I, 16 bits (R20). -/
  i : Word
  /-- The program counter, 16 bits (R21). -/
  pc : Word
  /-- SP, the number of occupied stack slots, 0 to 16 (R22; log entry 9). -/
  sp : Fin 17
  /-- The call stack, 16 slots of 16 bits, outside memory (R23). -/
  stack : Vector Word 16
  /-- The delay timer (R24). -/
  dt : Byte
  /-- The sound timer (R24). -/
  st : Byte
  /-- The frame buffer (R25). -/
  fb : Screen
  /-- The redraw flag (R26). -/
  redraw : Bool
  /-- The key state, true is pressed (R27). -/
  key : Vector Bool 16
  /-- The 4096 bytes of memory (R31). -/
  mem : Memory
  /-- True while the block is FAULTED (R29, R30). -/
  faulted : Bool
  /-- The cause of the fault, 0 for none (R29). -/
  faultCode : BitVec 3
  /-- The address of the instruction that faulted (R29). -/
  faultPc : Word
  /-- The cause-specific value of the fault (R29, 60_exceptions.md R117). -/
  faultInfo : Word
  /-- THE MODEL'S OWN: how many random inputs RND has consumed (log entry 2). -/
  draws : Nat
  deriving DecidableEq, Repr

/-- Reasons for `Outcome.fault`: none. Every fault of this hardware is an entry to the FAULTED state, whose effect the
spec describes (60_exceptions.md R123), so it is a next state; nothing raises an `Outcome.fault` (log entry 7). -/
inductive Fault where
  deriving DecidableEq, Repr

/-- Reasons for `Outcome.refused`. -/
inductive Refusal where
  /-- An instruction without a meaning would be rejected by name in `exec`'s arm. Raised by nothing: every arm of
  `exec` has a meaning. Safe: a refused step proves nothing. -/
  | notModelled (mnemonic : String)
  deriving DecidableEq, Repr

/-- The state after RESET (10_state.md R43, 70_reset_and_hazards.md R137): pc at 0x200, memory at the font and zeros,
everything else 0 by the spec's decision D2 (log entry 1), the sequencer in RUN. `draws` is the model's own field; its
0 is a DESIGN CHOICE (log entry 2). -/
def State.reset : State where
  v := Vector.replicate 16 0x00#8
  i := 0x0000#16
  pc := 0x0200#16
  sp := 0
  stack := Vector.replicate 16 0x0000#16
  dt := 0x00#8
  st := 0x00#8
  fb := Screen.clear
  redraw := false
  key := Vector.replicate 16 false
  mem := []
  faulted := false
  faultCode := 0#3
  faultPc := 0x0000#16
  faultInfo := 0x0000#16
  draws := 0

end Sys2Proof.Machine
end

