-- ==== Sys2Proof/Machine/Ops.lean ====
section
/-! DEFINITION. The named operations over registers, stack, memory and the fault status that the meanings share.
A meaning runs on the state AFTER fetch, where `pc` is the instruction's own address plus 2 (00_scope.md R10). -/

namespace Sys2Proof.Machine

/-- What a step of this machine answers. -/
abbrev Result := Host.Outcome State Fault Refusal

/-! ### Registers (10_state.md R17, R20, R21, R24) -/

/-- `V[x]` (00_scope.md R9). -/
def State.getV (s : State) (x : RegIdx) : Byte := s.v[x.toNat]'x.isLt

/-- `V[x] <- b`: no register is hard-wired (10_state.md R17). -/
def State.setV (s : State) (x : RegIdx) (b : Byte) : State := { s with v := s.v.set x.toNat b x.isLt }

/-- All sixteen registers at once, for the block load (42_index_memory.md R106). -/
def State.setRegs (s : State) (v : Vector Byte 16) : State := { s with v := v }

/-- `I <- a`. -/
def State.setI (s : State) (a : Word) : State := { s with i := a }

/-- `pc <- a`. -/
def State.setPc (s : State) (a : Word) : State := { s with pc := a }

/-- `DT <- b`. -/
def State.setDt (s : State) (b : Byte) : State := { s with dt := b }

/-- `ST <- b`. -/
def State.setSt (s : State) (b : Byte) : State := { s with st := b }

/-- `V[x] <- result`, then `VF <- flag`: the flag is written last, so for x = 0xF the result is lost
(41_arithmetic_logic.md R87; log entry 10). -/
def State.setVThenFlag (s : State) (x : RegIdx) (result flag : Byte) : State := (s.setV x result).setV vf flag

/-! ### Memory, the frame buffer and the random input -/

/-- Memory replaced. -/
def State.setMem (s : State) (m : Memory) : State := { s with mem := m }

/-- The frame buffer written and the redraw flag set, as every CLS and DRW does (10_state.md R26, 90_conflicts.md C3). -/
def State.setScreen (s : State) (fb : Screen) : State := { s with fb := fb, redraw := true }

/-- One random input consumed (41_arithmetic_logic.md R99: "Each execution consumes one fresh random input"). -/
def State.countDraw (s : State) : State := { s with draws := s.draws + 1 }

/-! ### The program counter and the call stack (40_control_flow.md) -/

/-- The address of the instruction being executed, `pc_i` (00_scope.md R10). -/
def State.pcI (s : State) : Word := s.pc - 2#16

/-- "Advance PC by an extra 2 if condition holds" (40_control_flow.md R80 to R83). -/
def State.skipIf (s : State) (c : Bool) : State := if c then s.setPc (s.pc + 2#16) else s

/-- `stack[SP] <- pc; SP <- SP + 1`, with a free slot (40_control_flow.md R79). -/
def State.pushPc (s : State) (h : s.sp.val < 16) : State :=
  { s with stack := s.stack.set s.sp.val s.pc h, sp := ⟨s.sp.val + 1, Nat.succ_lt_succ h⟩ }

/-- `SP <- SP - 1; pc <- stack[SP]`, with an occupied slot, which keeps its value (40_control_flow.md R77,
10_state.md R23). -/
def State.popPc (s : State) (h : 0 < s.sp.val) : State :=
  { s with
    sp := ⟨s.sp.val - 1, by omega⟩
    pc := s.stack[s.sp.val - 1]'(by omega) }

/-! ### Taking a fault (60_exceptions.md) -/

/-- `fault_code` of a cause (60_exceptions.md R117). -/
def FaultCause.code : FaultCause → BitVec 3
  | .stackOverflow => 1#3
  | .stackUnderflow => 2#3
  | .memoryAccess => 3#3
  | .keyIndex => 4#3

/-- Fault entry (60_exceptions.md R123), on a state in which nothing of the faulting STEP but the pc advance is written:
pc again holds the faulting instruction's address, the four status fields are written and the sequencer is FAULTED.
"Nothing is pushed, no register is saved elsewhere, no vector is taken". There is no return from a fault (R125): only
RESET leaves FAULTED (Machine/HostOps.lean). -/
def State.enterFault (s : State) (cause : FaultCause) (pcI info : Word) : State :=
  { s with pc := pcI, faulted := true, faultCode := cause.code, faultPc := pcI, faultInfo := info }

/-- `raise F(info)` of an executing instruction (00_scope.md R12), called before the meaning writes anything. -/
def raise (cause : FaultCause) (info : Word) (s : State) : Result := .next (s.enterFault cause s.pcI info)

/-- An instruction's access to the `n` bytes from I: all of them are checked first, and only if all exist does the
instruction reach `t` (20_memory.md R49, 42_index_memory.md R107). -/
def withAccess (n : Nat) (s t : State) : Result :=
  match firstOutOfRange s.i.toNat n with
  | some a => raise .memoryAccess (BitVec.ofNat 16 a) s
  | none => .next t

/-- The state of the sequencer, which the `faulted` bit is (10_state.md R30). -/
def State.sequencer (s : State) : Sequencer := if s.faulted then .faulted else .run

end Sys2Proof.Machine
end

