-- ==== Sys2Proof/Machine/Operands.lean ====
section
/-! DEFINITION. The operand forms: what a field of the instruction or the value of a register stands for
(30_encoding.md R64). -/

namespace Sys2Proof.Machine

/-- `zext_16(nnn)` (30_encoding.md R64). -/
def addrOperand (nnn : Addr) : Word := nnn.setWidth 16

/-- `zext_16(nnn) + V[0]`, not reduced to 12 bits (40_control_flow.md R84). -/
def State.offsetTarget (s : State) (nnn : Addr) : Word := addrOperand nnn + (s.getV 0#4).setWidth 16

/-- `(I + V[x]) mod 65536` (42_index_memory.md R102). -/
def State.indexPlus (s : State) (x : RegIdx) : Word := s.i + (s.getV x).setWidth 16

/-- `V[x] * 5`, the address of a font digit, not masked (42_index_memory.md R103). -/
def fontAddress (digit : Byte) : Word := BitVec.ofNat 16 (digit.toNat * 5)

/-- The three decimal digits, hundreds first (42_index_memory.md R104). -/
def bcdDigits (b : Byte) : List Byte :=
  [BitVec.ofNat 8 (b.toNat / 100), BitVec.ofNat 8 (b.toNat / 10 % 10), BitVec.ofNat 8 (b.toNat % 10)]

/-- How many registers V0 to Vx are (42_index_memory.md R105, R106). -/
def blockLength (x : RegIdx) : Nat := x.toNat + 1

/-- The values of V0 to Vx in order (42_index_memory.md R105). -/
def State.blockValues (s : State) (x : RegIdx) : List Byte :=
  (List.range (blockLength x)).map fun k => s.getV (BitVec.ofNat 4 k)

/-- The registers after V0 to Vx are loaded from the bytes at I (42_index_memory.md R106). -/
def State.blockLoaded (s : State) (x : RegIdx) : Vector Byte 16 :=
  Vector.ofFn fun r => if r.val ≤ x.toNat then s.mem.read (s.i.toNat + r.val) else s.v[r]

/-- `(I + x + 1) mod 65536`, the post-increment of the block transfers (42_index_memory.md R107). -/
def State.indexPastBlock (s : State) (x : RegIdx) : Word := s.i + BitVec.ofNat 16 (blockLength x)

/-- The column a sprite starts at: `V[x] mod 64` (43_display.md R110). -/
def spriteColumn (b : Byte) : Nat := b.toNat % 64

/-- The row a sprite starts at: `V[y] mod 32` (43_display.md R110). -/
def spriteRow (b : Byte) : Nat := b.toNat % 32

/-- `KeyPressed(k)`: the key's state, or nothing where the index is above 0xF (00_scope.md R13). -/
def State.keyPressed (s : State) (k : Byte) : Option Bool :=
  if h : k.toNat < 16 then some (s.key[k.toNat]'h) else none

/-- A key index as fault info (60_exceptions.md R117). -/
def keyInfo (k : Byte) : Word := k.setWidth 16

end Sys2Proof.Machine
end

