-- ==== Sys2Proof/Machine/Arithmetic.lean ====
section
/-! DEFINITION. Arithmetic, logic, shift and random instructions (41_arithmetic_logic.md R87 to R100). -/

namespace Sys2Proof.Machine

/-- LD Vx, kk (R88). -/
def execLdVxKk (x : RegIdx) (kk : Byte) (s : State) : Result := .next (s.setV x kk)

/-- ADD Vx, kk (R89): 8-bit wrap, no flag. -/
def execAddVxKk (x : RegIdx) (kk : Byte) (s : State) : Result := .next (s.setV x (s.getV x + kk))

/-- LD Vx, Vy (R90): VF is cleared too. -/
def execLdVxVy (x y : RegIdx) (s : State) : Result := .next (s.setVThenFlag x (s.getV y) clearedFlag)

/-- OR Vx, Vy (R91). -/
def execOrVxVy (x y : RegIdx) (s : State) : Result := .next (s.setVThenFlag x (s.getV x ||| s.getV y) clearedFlag)

/-- AND Vx, Vy (R92). -/
def execAndVxVy (x y : RegIdx) (s : State) : Result := .next (s.setVThenFlag x (s.getV x &&& s.getV y) clearedFlag)

/-- XOR Vx, Vy (R93). -/
def execXorVxVy (x y : RegIdx) (s : State) : Result := .next (s.setVThenFlag x (s.getV x ^^^ s.getV y) clearedFlag)

/-- ADD Vx, Vy (R94): VF is the carry. -/
def execAddVxVy (x y : RegIdx) (s : State) : Result :=
  .next (s.setVThenFlag x (s.getV x + s.getV y) (carryFlag (s.getV x) (s.getV y)))

/-- SUB Vx, Vy (R95): x minus y. -/
def execSubVxVy (x y : RegIdx) (s : State) : Result :=
  .next (s.setVThenFlag x (s.getV x - s.getV y) (noBorrowFlag (s.getV x) (s.getV y)))

/-- SHR Vx, Vy (R96): Vy shifted, the flag from the original Vx. -/
def execShrVxVy (x y : RegIdx) (s : State) : Result :=
  .next (s.setVThenFlag x (s.getV y >>> 1) (lowBitFlag (s.getV x)))

/-- SUBN Vx, Vy (R97): y minus x. -/
def execSubnVxVy (x y : RegIdx) (s : State) : Result :=
  .next (s.setVThenFlag x (s.getV y - s.getV x) (noBorrowFlag (s.getV y) (s.getV x)))

/-- SHL Vx, Vy (R98): Vy shifted, the flag from the original Vx. -/
def execShlVxVy (x y : RegIdx) (s : State) : Result :=
  .next (s.setVThenFlag x (s.getV y <<< 1) (highBitFlag (s.getV x)))

/-- RND with the random input `r` (R99). -/
def rndWith (r : Byte) (x : RegIdx) (kk : Byte) (s : State) : State := (s.setV x (r &&& kk)).countDraw

/-- RND Vx, kk (R99): the next random input of the environment, a free value (log entry 2). -/
def execRndVxKk (x : RegIdx) (kk : Byte) (s : State) : Result := .next (rndWith (Config.randomByte s.draws) x kk s)

end Sys2Proof.Machine
end

