-- ==== Sys2Proof/Machine/ControlFlow.lean ====
section
/-! DEFINITION. Control flow instructions (40_control_flow.md R77 to R86). -/

namespace Sys2Proof.Machine

/-- RET (R77): the stack's top into pc, or StackUnderflow with SP = 0. -/
def execRet (s : State) : Result :=
  if h : 0 < s.sp.val then .next (s.popPc h) else raise .stackUnderflow (BitVec.ofNat 16 s.sp.val) s

/-- JP nnn (R78). -/
def execJp (nnn : Addr) (s : State) : Result := .next (s.setPc (addrOperand nnn))

/-- CALL nnn (R79): the address after the CALL onto the stack, or StackOverflow with SP = 16. -/
def execCall (nnn : Addr) (s : State) : Result :=
  if h : s.sp.val < 16 then .next ((s.pushPc h).setPc (addrOperand nnn))
  else raise .stackOverflow (BitVec.ofNat 16 s.sp.val) s

/-- SE Vx, kk (R80). -/
def execSeVxKk (x : RegIdx) (kk : Byte) (s : State) : Result := .next (s.skipIf (s.getV x == kk))

/-- SNE Vx, kk (R81). -/
def execSneVxKk (x : RegIdx) (kk : Byte) (s : State) : Result := .next (s.skipIf (s.getV x != kk))

/-- SE Vx, Vy (R82). -/
def execSeVxVy (x y : RegIdx) (s : State) : Result := .next (s.skipIf (s.getV x == s.getV y))

/-- SNE Vx, Vy (R83). -/
def execSneVxVy (x y : RegIdx) (s : State) : Result := .next (s.skipIf (s.getV x != s.getV y))

/-- JP V0, nnn (R84): no reduction to 12 bits. -/
def execJpV0Nnn (nnn : Addr) (s : State) : Result := .next (s.setPc (s.offsetTarget nnn))

/-- NOP (R85): "silently ignored (no state change, no error)". -/
def execNop (s : State) : Result := .next s

end Sys2Proof.Machine
end

