-- ==== Sys2Proof/Machine/Display.lean ====
section
/-! DEFINITION. The frame buffer's operations and the display instructions (43_display.md R108 to R110). -/

namespace Sys2Proof.Machine

/-- `fb[r][c]`; a position outside the frame is no cell and reads unlit (10_state.md R25). -/
def Screen.get (fb : Screen) (r c : Nat) : Bool :=
  if h : r < 32 ∧ c < 64 then (fb[r]'h.1)[c]'h.2 else false

/-- `fb[r][c] <- fb[r][c] ^ 1`; a position outside the frame is dropped (43_display.md R110). -/
def Screen.toggle (fb : Screen) (r c : Nat) : Screen :=
  if h : r < 32 ∧ c < 64 then fb.set r ((fb[r]'h.1).set c (!fb.get r c) h.2) h.1 else fb

/-- Whether column offset `c` of a sprite byte is set: bit 7 is the leftmost pixel (43_display.md R108; log entry 14). -/
def spriteBit (b : Byte) (c : Nat) : Bool := b.getLsbD (7 - c)

/-- One pixel of a sprite byte, whose column offset is `c`, on the frame buffer and the collision so far
(43_display.md R110: clipped, not wrapped). -/
def drawPixel (row col : Nat) (b : Byte) (acc : Screen × Bool) (c : Nat) : Screen × Bool :=
  if spriteBit b c && decide (row < 32) && decide (col + c < 64) then
    (acc.1.toggle row (col + c), acc.2 || acc.1.get row (col + c))
  else acc

/-- The eight pixels of one sprite byte, left to right. -/
def drawRow (row col : Nat) (b : Byte) (acc : Screen × Bool) : Screen × Bool :=
  (List.range 8).foldl (drawPixel row col b) acc

/-- The rows of a sprite, top first, from `row` on; the collision is cumulative (43_display.md R110). -/
def drawRows (col : Nat) : Nat → List Byte → Screen × Bool → Screen × Bool
  | _, [], acc => acc
  | row, b :: bs, acc => drawRows col (row + 1) bs (drawRow row col b acc)

/-- A sprite on a frame buffer: the new frame buffer and whether a lit cell was turned off. -/
def drawSprite (fb : Screen) (row col : Nat) (bytes : List Byte) : Screen × Bool :=
  drawRows col row bytes (fb, false)

/-- The sprite of a DRW: the `n` bytes at I at the place V[x], V[y] name, all read before VF is written (R110). -/
def State.drawn (s : State) (x y : RegIdx) (n : Nibble) : Screen × Bool :=
  drawSprite s.fb (spriteRow (s.getV y)) (spriteColumn (s.getV x)) (s.mem.readBytes s.i.toNat n.toNat)

/-- CLS (R109): redraw is set even when the frame buffer was already clear. -/
def execCls (s : State) : Result := .next (s.setScreen Screen.clear)

/-- DRW Vx, Vy, n (R110): all n rows are read, clipped or not; n = 0 reads nothing and cannot fault. -/
def execDrw (x y : RegIdx) (n : Nibble) (s : State) : Result :=
  withAccess n.toNat s
    ((s.setV vf (collisionFlag (s.drawn x y n).2)).setScreen (s.drawn x y n).1)

end Sys2Proof.Machine
end

