-- ==== Sys2Proof/Machine/IndexMemory.lean ====
section
/-! DEFINITION. Index register and memory instructions (42_index_memory.md R101 to R107). -/

namespace Sys2Proof.Machine

/-- LD I, nnn (R101). -/
def execLdINnn (nnn : Addr) (s : State) : Result := .next (s.setI (addrOperand nnn))

/-- ADD I, Vx (R102): 16-bit wrap, no flag. -/
def execAddIVx (x : RegIdx) (s : State) : Result := .next (s.setI (s.indexPlus x))

/-- LD F, Vx (R103). -/
def execLdFVx (x : RegIdx) (s : State) : Result := .next (s.setI (fontAddress (s.getV x)))

/-- LD B, Vx (R104): three digits at I, I + 1, I + 2; I is not changed. -/
def execLdBVx (x : RegIdx) (s : State) : Result :=
  withAccess 3 s (s.setMem (s.mem.writeBytes s.i.toNat (bcdDigits (s.getV x))))

/-- LD [I], Vx (R105): V0 to Vx at I on, then I moves past them. -/
def execLdMemVx (x : RegIdx) (s : State) : Result :=
  withAccess (blockLength x) s
    ((s.setMem (s.mem.writeBytes s.i.toNat (s.blockValues x))).setI (s.indexPastBlock x))

/-- LD Vx, [I] (R106): V0 to Vx from I on, then I moves past them. -/
def execLdVxMem (x : RegIdx) (s : State) : Result :=
  withAccess (blockLength x) s ((s.setRegs (s.blockLoaded x)).setI (s.indexPastBlock x))

end Sys2Proof.Machine
end

