-- ==== Sys2Proof/Machine/TimersInput.lean ====
section
/-! DEFINITION. Timer and key input instructions (44_timers_input.md R111 to R116). -/

namespace Sys2Proof.Machine

/-- SKP Vx (R111): KeyIndexFault above 0xF. -/
def execSkpVx (x : RegIdx) (s : State) : Result :=
  match s.keyPressed (s.getV x) with
  | some pressed => .next (s.skipIf pressed)
  | none => raise .keyIndex (keyInfo (s.getV x)) s

/-- SKNP Vx (R112): KeyIndexFault above 0xF. -/
def execSknpVx (x : RegIdx) (s : State) : Result :=
  match s.keyPressed (s.getV x) with
  | some pressed => .next (s.skipIf (!pressed))
  | none => raise .keyIndex (keyInfo (s.getV x)) s

/-- LD Vx, DT (R113). -/
def execLdVxDt (x : RegIdx) (s : State) : Result := .next (s.setV x s.dt)

/-- The keys the wait-for-key scan looks at, in order: 0x0 to 0xE; key 0xF is not scanned (R114, WAITKEY_SCAN_LAST of
00_scope.md R6). -/
def scannedKeys : List Nat := List.range 15

/-- The lowest pressed key the scan finds (R114). -/
def State.firstKey (s : State) : Option Nat := scannedKeys.find? fun k => s.key.getD k false

/-- LD Vx, K (R114): pc goes back to the instruction; a pressed key sets V[x] and moves pc past it again. -/
def execLdVxK (x : RegIdx) (s : State) : Result :=
  let waiting := s.setPc (s.pc - 2#16)
  match s.firstKey with
  | some k => .next ((waiting.setV x (BitVec.ofNat 8 k)).setPc (waiting.pc + 2#16))
  | none => .next waiting

/-- LD DT, Vx (R115). -/
def execLdDtVx (x : RegIdx) (s : State) : Result := .next (s.setDt (s.getV x))

/-- LD ST, Vx (R116). -/
def execLdStVx (x : RegIdx) (s : State) : Result := .next (s.setSt (s.getV x))

end Sys2Proof.Machine
end

