-- ==== Sys2Proof/Machine/Fetch.lean ====
section
/-! DEFINITION. Instruction fetch (30_encoding.md R65), and the placing of a word where the next fetch reads. -/

namespace Sys2Proof.Machine

/-- The instruction word at address `a`, big-endian (20_memory.md R47). -/
def Memory.readWord (m : Memory) (a : Nat) : Word := wordOfBytes (m.read a) (m.read (a + 1))

/-- Fetch: the word at pc and the state with pc moved past it, or the info of the MemoryAccessFault when a byte of it
would lie above 0xFFF (30_encoding.md R65). -/
def fetch (s : State) : Except Word (Word × State) :=
  match firstOutOfRange s.pc.toNat 2 with
  | some a => .error (BitVec.ofNat 16 a)
  | none => .ok (s.mem.readWord s.pc.toNat, s.setPc (s.pc + 2#16))

/-- `s` in RUN with a pc whose fetch does not fault: `s` itself where it is so; else the fault status is cleared and a
pc above 0xFFE becomes 0x200. Used only to place a word (log entry 12). -/
def State.readyToFetch (s : State) : State :=
  { s with
    pc := if s.pc.toNat ≤ 0xFFE then s.pc else 0x200#16
    faulted := false
    faultCode := if s.faulted then 0#3 else s.faultCode
    faultPc := if s.faulted then 0#16 else s.faultPc
    faultInfo := if s.faulted then 0#16 else s.faultInfo }

/-- `s` with the word stored where its next fetch reads. -/
def State.placeWord (s : State) (w : Word) : State :=
  s.readyToFetch.setMem (s.mem.writeBytes s.readyToFetch.pc.toNat (bytesOfWord w))

end Sys2Proof.Machine
end

