-- ==== Sys2Proof/Machine/Step.lean ====
section
/-! DEFINITION. STEP, one cycle of the block (10_state.md R35). -/

namespace Sys2Proof.Machine

/-- STEP: nothing while FAULTED (60_exceptions.md R124); otherwise fetch, then decode and execute. A fetch fault is
checked first and its word is not decoded (R126). -/
def step (s : State) : Host.Outcome State Fault Refusal :=
  if s.faulted then .next s
  else
    match fetch s with
    | .error info => .next (s.enterFault .memoryAccess s.pc info)
    | .ok (w, s') => exec (decode w) s'

/-- `s` with the table row's word `w` stored where `step` fetches its next instruction (log entry 12). -/
def State.withFetchWord (s : State) (nbits w : Nat) : State := s.placeWord (tableWord nbits w)

end Sys2Proof.Machine
end

