-- ==== Sys2Proof/Machine/HostOps.lean ====
section
/-! DEFINITION. The host operations besides STEP: TICK, EXPORT, SET_KEYS, LOAD, RESET and READ (10_state.md R33 to R41),
what each answers, and sequences of them (R34; 70_reset_and_hazards.md R139, R142). -/

namespace Sys2Proof.Machine

/-- A timer "clamped at 0 (no decrement below 0)" (60_exceptions.md R131). -/
def countDown (b : Byte) : Byte := if 0 < b.toNat then b - 1#8 else b

/-- TICK: both timers, in RUN and FAULTED alike, and nothing else (10_state.md R36, 60_exceptions.md R131). -/
def tick (s : State) : State := { s with dt := countDown s.dt, st := countDown s.st }

/-- The 2048 cells in export order, cell `fb[r][c]` at index `r * 64 + c` (10_state.md R25, R37). -/
def Screen.cells (fb : Screen) : List Bool := fb.toList.flatMap fun row => row.toList

/-- EXPORT: the cells if redraw is set, which it clears; otherwise a no-op (10_state.md R37). -/
def exportFrame (s : State) : Option (List Bool) × State :=
  if s.redraw then (some s.fb.cells, { s with redraw := false }) else (none, s)

/-- SET_KEYS, "the only writer of the key state" (10_state.md R38). -/
def setKeys (keys : Vector Bool 16) (s : State) : State := { s with key := keys }

/-- LOAD of an image of at most 3584 bytes, verbatim from 0x200; a longer one is refused and writes nothing
(10_state.md R39; log entry 16). -/
def load (image : List Byte) (s : State) : Option State :=
  if image.length ≤ Config.maxImage then some (s.setMem (s.mem.writeBytes Config.programBase image)) else none

/-- RESET: every state element at its reset value and RUN (10_state.md R40, 70_reset_and_hazards.md R137). The model's
count of random inputs goes on, so that inputs after a RESET are fresh ones (log entry 2). -/
def reset (s : State) : State := { State.reset with draws := s.draws }

/-- What READ can name (10_state.md R41). -/
inductive ReadSel where
  | v (x : RegIdx)
  | i
  | pc
  | sp
  | stack (j : Fin 16)
  | dt
  | st
  | fb (r : Fin 32) (c : Fin 64)
  | redraw
  | key (k : Fin 16)
  | faulted
  | faultCode
  | faultPc
  | faultInfo
  | mem (a : Addr)
  deriving DecidableEq, Repr

/-- READ: the value of a state element, as the unsigned number it holds (10_state.md R41, 00_scope.md R8). -/
def readState (sel : ReadSel) (s : State) : Nat :=
  match sel with
  | .v x => (s.getV x).toNat
  | .i => s.i.toNat
  | .pc => s.pc.toNat
  | .sp => s.sp.val
  | .stack j => s.stack[j].toNat
  | .dt => s.dt.toNat
  | .st => s.st.toNat
  | .fb r c => s.fb[r][c].toNat
  | .redraw => s.redraw.toNat
  | .key k => s.key[k].toNat
  | .faulted => s.faulted.toNat
  | .faultCode => s.faultCode.toNat
  | .faultPc => s.faultPc.toNat
  | .faultInfo => s.faultInfo.toNat
  | .mem a => (s.mem.read a.toNat).toNat

/-- The operations "and no others" by which the host drives the block (10_state.md R33). -/
inductive HostOp where
  | step
  | tick
  | exportFrame
  | setKeys (keys : Vector Bool 16)
  | load (image : List Byte)
  | reset
  | read (sel : ReadSel)
  deriving DecidableEq, Repr

/-- What the host receives. -/
inductive Response where
  /-- The operation is complete and hands nothing over. -/
  | done
  /-- EXPORT: the 2048 cells. -/
  | frame (cells : List Bool)
  /-- LOAD: the image was refused and nothing was written. -/
  | imageRefused
  /-- READ: the value. -/
  | value (n : Nat)
  deriving DecidableEq, Repr

/-- One host operation, completely (10_state.md R34). -/
def applyOp (op : HostOp) (s : State) : Host.Outcome (State × Response) Fault Refusal :=
  match op with
  | .step =>
    match step s with
    | .next t => .next (t, .done)
    | .fault r => .fault r
    | .refused r => .refused r
  | .tick => .next (tick s, .done)
  | .exportFrame =>
    match exportFrame s with
    | (some cells, t) => .next (t, .frame cells)
    | (none, t) => .next (t, .done)
  | .setKeys keys => .next (setKeys keys s, .done)
  | .load image =>
    match load image s with
    | some t => .next (t, .done)
    | none => .next (s, .imageRefused)
  | .reset => .next (reset s, .done)
  | .read sel => .next (s, .value (readState sel s))

/-- Host operations in the order issued, with what each answered (10_state.md R34). -/
def runOps : List HostOp → State → Host.Outcome (State × List Response) Fault Refusal
  | [], s => .next (s, [])
  | op :: ops, s =>
    match applyOp op s with
    | .next (t, r) =>
      match runOps ops t with
      | .next (u, rs) => .next (u, r :: rs)
      | .fault e => .fault e
      | .refused e => .refused e
    | .fault e => .fault e
    | .refused e => .refused e

/-- The host's boot sequence (70_reset_and_hazards.md R139). -/
def bootOps (image : List Byte) (keys : Vector Bool 16) : List HostOp := [.reset, .load image, .setKeys keys]

/-- One frame of the host: CYCLES_PER_FRAME STEPs, one TICK, one EXPORT (70_reset_and_hazards.md R142). The number of
STEPs is the host's parameter (log entry 11). -/
def frameOps (cyclesPerFrame : Nat) : List HostOp := List.replicate cyclesPerFrame .step ++ [.tick, .exportFrame]

end Sys2Proof.Machine
end

