-- ==== Sys2Proof/Safety.lean ====
section
/-! DEFINITION. The terms the statements use: the parts of the state and what a step leaves alone, fault entry seen from
outside, the invariant of the machine, and when a program is settled. -/

namespace Sys2Proof.Machine

/-- Every piece of the state, one name each: what a frame statement ranges over. -/
inductive Part where
  | v (r : RegIdx)
  | i
  | pc
  | sp
  | stack (j : Fin 16)
  | dt
  | st
  | cell (r : Fin 32) (c : Fin 64)
  | redraw
  | key (k : Fin 16)
  | mem (a : Nat)
  | faulted
  | faultCode
  | faultPc
  | faultInfo
  | draws
  deriving DecidableEq, Repr

/-- The part reads the same in both states; memory by its reading of one byte. -/
def Part.Same (p : Part) (s t : State) : Prop :=
  match p with
  | .v r => t.getV r = s.getV r
  | .i => t.i = s.i
  | .pc => t.pc = s.pc
  | .sp => t.sp = s.sp
  | .stack j => t.stack[j] = s.stack[j]
  | .dt => t.dt = s.dt
  | .st => t.st = s.st
  | .cell r c => t.fb[r][c] = s.fb[r][c]
  | .redraw => t.redraw = s.redraw
  | .key k => t.key[k] = s.key[k]
  | .mem a => t.mem.read a = s.mem.read a
  | .faulted => t.faulted = s.faulted
  | .faultCode => t.faultCode = s.faultCode
  | .faultPc => t.faultPc = s.faultPc
  | .faultInfo => t.faultInfo = s.faultInfo
  | .draws => t.draws = s.draws

/-- From `s` to `t` every part outside `written` is unchanged. -/
def KeepsOutside (written : Part → Prop) (s t : State) : Prop := ∀ p : Part, ¬ written p → p.Same s t

/-- From `s` to `t` every part not listed is unchanged. -/
def KeepsAllBut (written : List Part) (s t : State) : Prop := KeepsOutside (· ∈ written) s t

/-- What fault entry leaves (60_exceptions.md R123), for the instruction at `pcI`: FAULTED, the cause's code, `pcI` and
`info` recorded, pc at the faulting instruction, and everything else as in `s`. -/
def FaultEntered (code : BitVec 3) (pcI info : Word) (s t : State) : Prop :=
  t.faulted = true ∧ t.faultCode = code ∧ t.faultPc = pcI ∧ t.faultInfo = info ∧ t.pc = pcI ∧
    KeepsAllBut [.faulted, .faultCode, .faultPc, .faultInfo, .pc] s t

/-- The fault status says what R117 and R123 let it say: all zero in RUN; in FAULTED one of the four codes, with pc
still at the faulting instruction, and an info its cause can have. -/
structure FaultStatusOk (s : State) : Prop where
  clear : s.faulted = false → s.faultCode = 0#3 ∧ s.faultPc = 0#16 ∧ s.faultInfo = 0#16
  pcHeld : s.faulted = true → s.faultPc = s.pc
  cause : s.faulted = true →
    (s.faultCode = 1#3 ∧ s.faultInfo = 16#16) ∨ (s.faultCode = 2#3 ∧ s.faultInfo = 0#16) ∨
    (s.faultCode = 3#3 ∧ 0x1000 ≤ s.faultInfo.toNat) ∨
    (s.faultCode = 4#3 ∧ 0x10 ≤ s.faultInfo.toNat ∧ s.faultInfo.toNat ≤ 0xFF)

/-- The invariant: memory in its canonical form and inside the 4096 bytes; pc at most 0x10FE (10_state.md R21); every
stack slot a return address, at most 0x1000 (40_control_flow.md R77); the fault status consistent. -/
structure Inv (s : State) : Prop where
  memory : s.mem.wf = true
  pcBound : s.pc.toNat ≤ 0x10FE
  slotBound : ∀ j : Fin 16, s.stack[j].toNat ≤ 0x1000
  status : FaultStatusOk s

/-- The sprite of `n` rows at I, started at column V[x] mod 64 and row V[y] mod 32, has a 1 bit for the cell
`fb[r][c]` (43_display.md R108, R110): bit 7 of a byte is its leftmost column, nothing wraps. -/
def spriteCovers (s : State) (x y : RegIdx) (n : Nibble) (r : Fin 32) (c : Fin 64) : Bool :=
  let row := (s.getV y).toNat % 32
  let col := (s.getV x).toNat % 64
  decide (row ≤ r.val ∧ r.val < row + n.toNat ∧ col ≤ c.val ∧ c.val < col + 8) &&
    (s.mem.read (s.i.toNat + (r.val - row))).getLsbD (7 - (c.val - col))

/-- The bytes at pc are the word `w`, and STEP would fetch it: the block is in RUN and both bytes exist. -/
def FetchesWord (s : State) (w : Word) : Prop :=
  s.faulted = false ∧ s.pc.toNat ≤ 0xFFE ∧
    [s.mem.read s.pc.toNat, s.mem.read (s.pc.toNat + 1)] = bytesOfWord w

/-- A program is settled at a jump to its own address (70_reset_and_hazards.md R143). -/
def Settled (s : State) : Prop := ∃ nnn : Addr, FetchesWord s (encode (.jp nnn)) ∧ nnn.setWidth 16 = s.pc

/-- `s` runs: a safe run is one whose states are all so (no fault has been entered). -/
def Running (s : State) : Prop := s.faulted = false

end Sys2Proof.Machine
end

