-- ==== Sys2Proof/Certificates/Slice0/Obligations.lean ====
section
/-! DEFINITION. The statements for the provers. A statement about one instruction is about the state AFTER fetch, where
pc is the instruction's address plus 2 (00_scope.md R10); `StepRunsDecodedInstruction` carries it to STEP. Which
word is which instruction is R72 for all of files 40 to 44 ("Encodings are [from general knowledge, not in source]
(30_encoding.md rule R72)"), the spec's decision D18 (log entry 5); `OpcodeMapDecodes` states it, once. -/

open Sys2Proof Sys2Proof.Machine

/-! ### Encoding (30_encoding.md) -/

/-- A selection of the words the spec writes out decode to the instructions they stand for: from 95_test_vectors.md the
words of S1, S11, E1 to E4, E7, E8, E10 to E14, E16 and E17, and the example words 0x2210, 0x6A2B, 0xA300 and 0xF20A of
rules R79, R88, R101 and R114. The opcode values are the spec's decision D18 (log entry 5); the bits left unexamined are
its decisions D7 and D8, and keeping them as fields, with NOP keeping its word, is the model's choice (log entry 6). -/
def Obligations.SpecWordsDecode : Prop :=
  decode 0xD123#16 = .drw 1#4 2#4 3#4 ∧ decode 0x00E0#16 = .cls 0#4 ∧ decode 0x03E0#16 = .cls 3#4 ∧
  decode 0x00EE#16 = .ret 0#4 ∧ decode 0x2210#16 = .call 0x210#12 ∧ decode 0xB123#16 = .jpV0Nnn 0x123#12 ∧
  decode 0x512F#16 = .seVxVy 1#4 2#4 0xF#4 ∧ decode 0x9121#16 = .sneVxVy 1#4 2#4 1#4 ∧
  decode 0x6A2B#16 = .ldVxKk 0xA#4 0x2B#8 ∧ decode 0x8AB6#16 = .shrVxVy 0xA#4 0xB#4 ∧
  decode 0xA300#16 = .ldINnn 0x300#12 ∧ decode 0xF533#16 = .ldBVx 5#4 ∧ decode 0xF155#16 = .ldMemVx 1#4 ∧
  decode 0xE19E#16 = .skpVx 1#4 ∧ decode 0xF20A#16 = .ldVxK 2#4 ∧ decode 0x0000#16 = .nop 0x0000#16 ∧
  decode 0x8008#16 = .nop 0x8008#16 ∧ decode 0xE19F#16 = .nop 0xE19F#16 ∧ decode 0xFFFF#16 = .nop 0xFFFF#16

/-- The opcode map, row by row, every operand at every value (R72 except its NOP row, which is `NopSpaceIsExact`). It
rests on the spec's decisions D7, D8 and D18 (log entries 5, 6). -/
def Obligations.OpcodeMapDecodes : Prop :=
  ∀ (x y n : Nibble) (kk : Byte) (nnn : Addr),
    decode (0x0#4 ++ x ++ 0xE0#8) = .cls x ∧ decode (0x0#4 ++ x ++ 0xEE#8) = .ret x ∧
    decode (0x1#4 ++ nnn) = .jp nnn ∧ decode (0x2#4 ++ nnn) = .call nnn ∧
    decode (0x3#4 ++ x ++ kk) = .seVxKk x kk ∧ decode (0x4#4 ++ x ++ kk) = .sneVxKk x kk ∧
    decode (0x5#4 ++ x ++ y ++ n) = .seVxVy x y n ∧ decode (0x6#4 ++ x ++ kk) = .ldVxKk x kk ∧
    decode (0x7#4 ++ x ++ kk) = .addVxKk x kk ∧ decode (0x8#4 ++ x ++ y ++ 0x0#4) = .ldVxVy x y ∧
    decode (0x8#4 ++ x ++ y ++ 0x1#4) = .orVxVy x y ∧ decode (0x8#4 ++ x ++ y ++ 0x2#4) = .andVxVy x y ∧
    decode (0x8#4 ++ x ++ y ++ 0x3#4) = .xorVxVy x y ∧ decode (0x8#4 ++ x ++ y ++ 0x4#4) = .addVxVy x y ∧
    decode (0x8#4 ++ x ++ y ++ 0x5#4) = .subVxVy x y ∧ decode (0x8#4 ++ x ++ y ++ 0x6#4) = .shrVxVy x y ∧
    decode (0x8#4 ++ x ++ y ++ 0x7#4) = .subnVxVy x y ∧ decode (0x8#4 ++ x ++ y ++ 0xE#4) = .shlVxVy x y ∧
    decode (0x9#4 ++ x ++ y ++ n) = .sneVxVy x y n ∧ decode (0xA#4 ++ nnn) = .ldINnn nnn ∧
    decode (0xB#4 ++ nnn) = .jpV0Nnn nnn ∧ decode (0xC#4 ++ x ++ kk) = .rndVxKk x kk ∧
    decode (0xD#4 ++ x ++ y ++ n) = .drw x y n ∧ decode (0xE#4 ++ x ++ 0x9E#8) = .skpVx x ∧
    decode (0xE#4 ++ x ++ 0xA1#8) = .sknpVx x ∧ decode (0xF#4 ++ x ++ 0x07#8) = .ldVxDt x ∧
    decode (0xF#4 ++ x ++ 0x0A#8) = .ldVxK x ∧ decode (0xF#4 ++ x ++ 0x15#8) = .ldDtVx x ∧
    decode (0xF#4 ++ x ++ 0x18#8) = .ldStVx x ∧ decode (0xF#4 ++ x ++ 0x1E#8) = .addIVx x ∧
    decode (0xF#4 ++ x ++ 0x29#8) = .ldFVx x ∧ decode (0xF#4 ++ x ++ 0x33#8) = .ldBVx x ∧
    decode (0xF#4 ++ x ++ 0x55#8) = .ldMemVx x ∧ decode (0xF#4 ++ x ++ 0x65#8) = .ldVxMem x

/-- Decoding the word of a well-formed instruction gives the instruction back, for every instruction and every operand:
no bit of an encoding is dropped (R62, R63, R72, R73). That the instruction holds the bits the decoder does not examine,
and NOP its whole word, is the model's choice (log entry 6); the opcode values are the spec's decision D18 (log entry
5). -/
def Obligations.DecodeEncodeRoundTrip : Prop := ∀ i : Instr, i.wf = true → decode (encode i) = i

/-- Every word decodes to a well-formed instruction (R73: "every 16-bit word decodes to one instruction of rule R72 or to
the no-op"), and that instruction, as the model writes it, encodes to the word again. The second part is the model's
choice and no rule of the spec: `Instr` keeps the bits the decoder does not examine, and NOP its whole word (log entry 6,
DESIGN CHOICE), so 0x00E0 and 0x03E0, which are the same CLS in the spec, are two terms with the same effect here. -/
def Obligations.EncodeDecodeRoundTrip : Prop := ∀ w : Word, (decode w).wf = true ∧ encode (decode w) = w

/-- The no-op space is exactly the one R73 lists, by class W[15:12] = w / 4096, low byte w % 256 and low nibble w % 16;
a word of it decodes to NOP and no other word does. R73 is the spec's own derivation from R67 to R70; that NOP
carries its word is the model's choice (log entry 6). -/
def Obligations.NopSpaceIsExact : Prop :=
  ∀ w : Word, decode w = .nop w ↔
    (w.toNat / 4096 = 0x0 ∧ w.toNat % 256 ≠ 0xE0 ∧ w.toNat % 256 ≠ 0xEE) ∨
    (w.toNat / 4096 = 0x8 ∧ (8 ≤ w.toNat % 16 ∧ w.toNat % 16 ≤ 0xD ∨ w.toNat % 16 = 0xF)) ∨
    (w.toNat / 4096 = 0xE ∧ w.toNat % 256 ≠ 0x9E ∧ w.toNat % 256 ≠ 0xA1) ∨
    (w.toNat / 4096 = 0xF ∧ w.toNat % 256 ∉ [0x07, 0x0A, 0x15, 0x18, 0x1E, 0x29, 0x33, 0x55, 0x65])

/-- The fields of every word are the masked and shifted values R63 gives, and every register index is in range. -/
def Obligations.FieldsAreMaskedBits : Prop :=
  ∀ w : Word,
    fieldMsb w = w &&& 0xF000#16 ∧ (fieldMsb w).toNat = (fieldClass w).toNat * 4096 ∧
    (fieldNnn w).toNat = (w &&& 0x0FFF#16).toNat ∧ (fieldN w).toNat = (w &&& 0x000F#16).toNat ∧
    (fieldX w).toNat = ((w &&& 0x0F00#16) >>> 8).toNat ∧ (fieldY w).toNat = ((w &&& 0x00F0#16) >>> 4).toNat ∧
    (fieldKk w).toNat = (w &&& 0x00FF#16).toNat ∧ (fieldX w).toNat ≤ 15 ∧ (fieldY w).toNat ≤ 15

/-- The decoder always consumes exactly two bytes, the first the more significant (R61). -/
def Obligations.DecoderConsumesTwoBytes : Prop :=
  ∀ (a b : Byte) (rest : List Byte),
    ∃ w : Word, w.toNat = a.toNat * 256 + b.toNat ∧ decodeBytes (a :: b :: rest) = .ok (decode w, rest)

/-! ### STEP, faults and the invariant (10_state.md, 60_exceptions.md) -/

/-- A step runs the decoded instruction: in RUN, with both bytes inside memory, STEP is the effect of the instruction the
bytes at pc decode to, on the state whose pc has moved past it; the move does not wrap (10_state.md R35,
30_encoding.md R65). -/
def Obligations.StepRunsDecodedInstruction : Prop :=
  ∀ (s : State) (i : Instr), s.faulted = false → s.pc.toNat ≤ 0xFFE →
    decodeBytes [s.mem.read s.pc.toNat, s.mem.read (s.pc.toNat + 1)] = .ok (i, []) →
    i.wf = true ∧ (s.pc + 2#16).toNat = s.pc.toNat + 2 ∧ step s = exec i { s with pc := s.pc + 2#16 }

/-- A fetch whose second byte would lie above 0xFFF takes MemoryAccessFault with the lowest such address (30_encoding.md
R65, the spec's decision D9; entry by decision D3; log entries 7, 15). -/
def Obligations.FetchBeyondMemoryFaults : Prop :=
  ∀ s : State, s.faulted = false → 0xFFE < s.pc.toNat →
    ∃ t, step s = .next t ∧
      FaultEntered 3#3 s.pc (if 0xFFF < s.pc.toNat then s.pc else 0x1000#16) s t

/-- In FAULTED, STEP changes nothing, and no operation but RESET ends FAULTED or changes the fault status, V, I, pc, the
stack or the frame buffer (60_exceptions.md R124, R125; the spec's decisions D3 and D14; log entries 7, 19). -/
def Obligations.OnlyResetLeavesFaulted : Prop :=
  (∀ s : State, s.faulted = true → step s = .next s) ∧
  ∀ (ops : List HostOp) (s t : State) (answers : List Response), HostOp.reset ∉ ops → s.faulted = true →
    runOps ops s = .next (t, answers) →
    KeepsOutside (fun p => p = .dt ∨ p = .st ∨ p = .redraw ∨ (∃ k, p = .key k) ∨ ∃ a, p = .mem a) s t

/-- Every state has a next state, under STEP and under every instruction: no word is illegal, and faults are entries to
FAULTED (30_encoding.md R73, 60_exceptions.md R122, R123; log entry 7). -/
def Obligations.EveryStepAnswersNext : Prop :=
  (∀ s : State, ∃ t, step s = .next t) ∧ ∀ (i : Instr) (s : State), ∃ t, exec i s = .next t

/-- Faults are precise and are exactly those of 60_exceptions.md R117: a STEP that enters FAULTED leaves everything but
the fault status as it was, pc included, and the code, the info and the fetched word are those of one row of the table.
(The spec's decisions D3, D4, D5; log entries 7, 13.) -/
def Obligations.FaultsArePreciseAndListed : Prop :=
  ∀ s t : State, s.faulted = false → step s = .next t → t.faulted = true →
    FaultEntered t.faultCode s.pc t.faultInfo s t ∧
    ((t.faultCode = 1#3 ∧ s.sp = 16 ∧ t.faultInfo = 16#16 ∧ ∃ nnn, FetchesWord s (encode (.call nnn))) ∨
     (t.faultCode = 2#3 ∧ s.sp = 0 ∧ t.faultInfo = 0#16 ∧ ∃ hi, FetchesWord s (encode (.ret hi))) ∨
     (t.faultCode = 3#3 ∧ 0xFFE < s.pc.toNat ∧ t.faultInfo.toNat = max s.pc.toNat 0x1000) ∨
     (t.faultCode = 3#3 ∧ t.faultInfo.toNat = max s.i.toNat 0x1000 ∧
       ((∃ x y n, FetchesWord s (encode (.drw x y n)) ∧ 0x1000 < s.i.toNat + n.toNat) ∨
        (∃ x, FetchesWord s (encode (.ldBVx x)) ∧ 0x1000 < s.i.toNat + 3) ∨
        (∃ x, FetchesWord s (encode (.ldMemVx x)) ∧ 0xFFF < s.i.toNat + x.toNat) ∨
        (∃ x, FetchesWord s (encode (.ldVxMem x)) ∧ 0xFFF < s.i.toNat + x.toNat))) ∨
     (t.faultCode = 4#3 ∧ ∃ x, 0xF < (s.getV x).toNat ∧ t.faultInfo.toNat = (s.getV x).toNat ∧
       (FetchesWord s (encode (.skpVx x)) ∨ FetchesWord s (encode (.sknpVx x)))))

/-- The state after reset meets the invariant. -/
def Obligations.ResetMeetsInvariant : Prop := Inv State.reset

/-- STEP keeps the invariant, from every state that meets it: memory stays canonical and inside its 4096 bytes, pc stays
at most 0x10FE (10_state.md R21), every stack slot stays a return address of at most 0x1000 (40_control_flow.md R77), the
fault status stays consistent. -/
def Obligations.StepKeepsInvariant : Prop := ∀ s t : State, Inv s → step s = .next t → Inv t

/-- Every sequence of host operations keeps the invariant, whatever the images, keys and random inputs. -/
def Obligations.HostRunsKeepInvariant : Prop :=
  ∀ (ops : List HostOp) (s t : State) (answers : List Response),
    Inv s → runOps ops s = .next (t, answers) → Inv t

/-! ### Whole-machine rules from the prose: who writes what -/

/-- A STEP that changes SP or a stack slot executes CALL or RET (10_state.md R22, R23; the width of SP is the spec's
decision D22). -/
def Obligations.OnlyCallAndRetMoveStack : Prop :=
  ∀ s t : State, step s = .next t → (t.sp ≠ s.sp ∨ ∃ j : Fin 16, t.stack[j] ≠ s.stack[j]) →
    (∃ nnn, FetchesWord s (encode (.call nnn))) ∨ ∃ hi, FetchesWord s (encode (.ret hi))

/-- A STEP that changes a cell or the redraw flag executes CLS or DRW, and no STEP clears redraw (10_state.md R25,
R26). -/
def Obligations.OnlyDisplayWritesScreen : Prop :=
  ∀ s t : State, step s = .next t →
    ((∃ (r : Fin 32) (c : Fin 64), t.fb[r][c] ≠ s.fb[r][c]) ∨ t.redraw ≠ s.redraw →
      (∃ hi, FetchesWord s (encode (.cls hi))) ∨ ∃ x y n, FetchesWord s (encode (.drw x y n))) ∧
    (s.redraw = true → t.redraw = true)

/-- A STEP that changes a byte of memory executes LD B, Vx or LD [I], Vx, and the byte is one of those R50 lists for it
(20_memory.md R50). -/
def Obligations.OnlyStoresWriteMemory : Prop :=
  ∀ (s t : State) (a : Nat), step s = .next t → t.mem.read a ≠ s.mem.read a →
    (∃ x, FetchesWord s (encode (.ldBVx x)) ∧ s.i.toNat ≤ a ∧ a ≤ s.i.toNat + 2) ∨
    ∃ x, FetchesWord s (encode (.ldMemVx x)) ∧ s.i.toNat ≤ a ∧ a ≤ s.i.toNat + x.toNat

/-- A STEP that changes I executes one of the five instructions R20 names; one that changes DT executes LD DT, Vx, and
one that changes ST executes LD ST, Vx (10_state.md R20, R24). -/
def Obligations.IndexAndTimerWriters : Prop :=
  ∀ s t : State, step s = .next t →
    (t.i ≠ s.i → (∃ nnn, FetchesWord s (encode (.ldINnn nnn))) ∨
      ∃ x, FetchesWord s (encode (.addIVx x)) ∨ FetchesWord s (encode (.ldFVx x)) ∨
        FetchesWord s (encode (.ldMemVx x)) ∨ FetchesWord s (encode (.ldVxMem x))) ∧
    (t.dt ≠ s.dt → ∃ x, FetchesWord s (encode (.ldDtVx x))) ∧
    (t.st ≠ s.st → ∃ x, FetchesWord s (encode (.ldStVx x)))

/-- No STEP changes a key; of the host operations only SET_KEYS and RESET do (10_state.md R27, R38, R43). -/
def Obligations.OnlySetKeysWritesKeys : Prop :=
  (∀ s t : State, step s = .next t → ∀ k : Fin 16, t.key[k] = s.key[k]) ∧
  (∀ (s : State) (keys : Vector Bool 16), ∃ t, applyOp (.setKeys keys) s = .next (t, .done) ∧
    (∀ k : Fin 16, t.key[k] = keys[k]) ∧ KeepsOutside (fun p => ∃ k, p = .key k) s t) ∧
  ∀ (op : HostOp) (s t : State) (answer : Response), applyOp op s = .next (t, answer) → op ≠ .reset →
    (∀ keys, op ≠ .setKeys keys) → ∀ k : Fin 16, t.key[k] = s.key[k]

/-- No STEP depends on ST, the redraw flag or the values of fault_code, fault_pc and fault_info: started with other
values of them it answers a state that differs in nothing else (10_state.md R24: ST "is never read by an instruction";
R26: "No instruction reads it"; R29: "not addressable by any instruction"). -/
def Obligations.UnreadStateNeverLeaks : Prop :=
  ∀ (s t : State) (st : Byte) (redraw : Bool) (code : BitVec 3) (faultPc info : Word), step s = .next t →
    ∃ t', step { s with st := st, redraw := redraw, faultCode := code, faultPc := faultPc, faultInfo := info } =
      .next t' ∧ KeepsAllBut [.st, .redraw, .faultCode, .faultPc, .faultInfo] t t'

/-- The keys are read by SKP, SKNP and LD Vx, K alone: any other STEP does the same whatever the keys are (10_state.md
R27). -/
def Obligations.KeysAreReadByThreeInstructions : Prop :=
  ∀ (s t : State) (keys : Vector Bool 16), step s = .next t →
    (∀ x, ¬ FetchesWord s (encode (.skpVx x)) ∧ ¬ FetchesWord s (encode (.sknpVx x)) ∧
      ¬ FetchesWord s (encode (.ldVxK x))) →
    step { s with key := keys } = .next { t with key := keys }

/-! ### Reset and the host operations (10_state.md R33 to R43) -/

/-- RESET, from any state, and the reset state itself: pc at 0x200, the font from 0x000 and zeros from 0x050 on,
everything else 0 and the sequencer in RUN (10_state.md R43, 70_reset_and_hazards.md R137; the zeros outside memory are
the spec's decision D2, log entry 1; the font bytes are whatever `fontData` holds, log entry 3). -/
def Obligations.ResetLeavesTheListedValues : Prop :=
  ∀ s t : State, (t = State.reset ∨ applyOp .reset s = .next (t, .done)) →
    t.pc = 0x200#16 ∧ (∀ x, t.getV x = 0#8) ∧ t.i = 0#16 ∧ t.sp = 0 ∧ (∀ j : Fin 16, t.stack[j] = 0#16) ∧
    t.dt = 0#8 ∧ t.st = 0#8 ∧ (∀ (r : Fin 32) (c : Fin 64), t.fb[r][c] = false) ∧ t.redraw = false ∧
    (∀ k : Fin 16, t.key[k] = false) ∧ t.faulted = false ∧ t.faultCode = 0#3 ∧ t.faultPc = 0#16 ∧
    t.faultInfo = 0#16 ∧ t.sequencer = .run ∧ fontData.length = 80 ∧
    (∀ a, a < 0x50 → fontData[a]? = some (t.mem.read a)) ∧ ∀ a, 0x50 ≤ a → t.mem.read a = 0#8

/-- Any number of TICKs takes exactly that much from each timer, stopping at 0, and changes nothing else, in RUN and in
FAULTED (60_exceptions.md R131; FAULTED is the spec's decision D14, log entry 19). -/
def Obligations.TicksCountDownToZero : Prop :=
  ∀ (n : Nat) (s : State), ∃ t answers, runOps (List.replicate n .tick) s = .next (t, answers) ∧
    t.dt.toNat = s.dt.toNat - n ∧ t.st.toNat = s.st.toNat - n ∧ KeepsAllBut [.dt, .st] s t

/-- EXPORT hands over the 2048 cells, `fb[r][c]` at index r * 64 + c, and clears redraw, if redraw is set; otherwise it
does nothing (10_state.md R25, R37; the order is the spec's decision D13, the handshake D21; log entries 14, 21). -/
def Obligations.ExportHandsOverCells : Prop :=
  ∀ s : State,
    (s.redraw = true → ∃ t cells, applyOp .exportFrame s = .next (t, .frame cells) ∧ cells.length = 2048 ∧
      (∀ (r : Fin 32) (c : Fin 64), cells[r.val * 64 + c.val]? = some s.fb[r][c]) ∧
      t.redraw = false ∧ KeepsAllBut [.redraw] s t) ∧
    (s.redraw = false → applyOp .exportFrame s = .next (s, .done))

/-- LOAD writes the image verbatim from 0x200 and nothing else; an image over 3584 bytes is refused and writes nothing
(10_state.md R39; the limit is the spec's decision D17, log entry 16). -/
def Obligations.LoadWritesImageVerbatim : Prop :=
  ∀ (s : State) (image : List Byte), s.mem.wf = true →
    (image.length ≤ 3584 → ∃ t, applyOp (.load image) s = .next (t, .done) ∧ t.mem.wf = true ∧
      (∀ j, j < image.length → image[j]? = some (t.mem.read (0x200 + j))) ∧
      KeepsOutside (fun p => ∃ j, j < image.length ∧ p = .mem (0x200 + j)) s t) ∧
    (3584 < image.length → applyOp (.load image) s = .next (s, .imageRefused))

/-- READ changes nothing and shows all the state: two states of canonical memory that answer every READ alike are equal,
but for the model's own count of random inputs (10_state.md R41; log entries 2, 24). -/
def Obligations.ReadShowsAllState : Prop :=
  (∀ (s : State) (sel : ReadSel), ∃ n, applyOp (.read sel) s = .next (s, .value n)) ∧
  ∀ s t : State, s.mem.wf = true → t.mem.wf = true → s.draws = t.draws →
    (∀ sel, applyOp (.read sel) s = .next (s, .value (readState sel t))) → s = t

/-! ### Control flow (40_control_flow.md) -/

/-- RET (R77): with SP > 0, pc is the popped slot and SP one less, the slot kept; with SP = 0, StackUnderflow. -/
def Obligations.RetPopsOrUnderflows : Prop :=
  ∀ (s : State) (hi : Nibble),
    (∀ h : 0 < s.sp.val, ∃ t, exec (.ret hi) s = .next t ∧ t.sp.val = s.sp.val - 1 ∧
      t.pc = s.stack[s.sp.val - 1]'(by omega) ∧ KeepsAllBut [.sp, .pc] s t) ∧
    (s.sp.val = 0 → ∃ t, exec (.ret hi) s = .next t ∧ FaultEntered 2#3 (s.pc - 2#16) 0#16 s t)

/-- JP nnn (R78): pc is the zero-extended address, nothing else changes. -/
def Obligations.JumpSetsPc : Prop :=
  ∀ (s : State) (nnn : Addr),
    ∃ t, exec (.jp nnn) s = .next t ∧ t.pc.toNat = nnn.toNat ∧ KeepsAllBut [.pc] s t

/-- CALL nnn (R79): with SP < 16, the return address goes to `stack[SP]`, SP is one more and pc the address; with
SP = 16, StackOverflow. -/
def Obligations.CallPushesOrOverflows : Prop :=
  ∀ (s : State) (nnn : Addr),
    (∀ h : s.sp.val < 16, ∃ t, exec (.call nnn) s = .next t ∧ t.stack[s.sp.val] = s.pc ∧
      t.sp.val = s.sp.val + 1 ∧ t.pc.toNat = nnn.toNat ∧ KeepsAllBut [.stack ⟨s.sp.val, h⟩, .sp, .pc] s t) ∧
    (s.sp.val = 16 → ∃ t, exec (.call nnn) s = .next t ∧ FaultEntered 1#3 (s.pc - 2#16) 16#16 s t)

/-- SE Vx, kk and SNE Vx, kk (R80, R81): pc advances by an extra 2 exactly when the condition holds. -/
def Obligations.ImmediateSkips : Prop :=
  ∀ (s : State) (x : RegIdx) (kk : Byte),
    (∃ t, exec (.seVxKk x kk) s = .next t ∧ (s.getV x = kk → t.pc = s.pc + 2#16) ∧
      (s.getV x ≠ kk → t.pc = s.pc) ∧ KeepsAllBut [.pc] s t) ∧
    ∃ t, exec (.sneVxKk x kk) s = .next t ∧ (s.getV x ≠ kk → t.pc = s.pc + 2#16) ∧
      (s.getV x = kk → t.pc = s.pc) ∧ KeepsAllBut [.pc] s t

/-- SE Vx, Vy and SNE Vx, Vy (R82, R83), whatever the low nibble, which the spec's decision D8 leaves unexamined (log
entry 6): the skip follows the comparison; for x = y SE always skips and SNE never does. -/
def Obligations.RegisterSkips : Prop :=
  ∀ (s : State) (x y : RegIdx) (lo : Nibble),
    (∃ t, exec (.seVxVy x y lo) s = .next t ∧ (s.getV x = s.getV y → t.pc = s.pc + 2#16) ∧
      (s.getV x ≠ s.getV y → t.pc = s.pc) ∧ KeepsAllBut [.pc] s t) ∧
    ∃ t, exec (.sneVxVy x y lo) s = .next t ∧ (s.getV x ≠ s.getV y → t.pc = s.pc + 2#16) ∧
      (s.getV x = s.getV y → t.pc = s.pc) ∧ KeepsAllBut [.pc] s t

/-- JP V0, nnn (R84): pc is the address plus V0, not reduced to 12 bits. -/
def Obligations.OffsetJumpIsNotReduced : Prop :=
  ∀ (s : State) (nnn : Addr),
    ∃ t, exec (.jpV0Nnn nnn) s = .next t ∧ t.pc.toNat = nnn.toNat + (s.getV 0#4).toNat ∧ KeepsAllBut [.pc] s t

/-- NOP (R85): a word of the no-op space decodes to NOP, which changes nothing after its fetch and never faults. Which
words these are is R73, the spec's own derivation (decisions D7, D18; log entries 5, 6). -/
def Obligations.NopChangesNothing : Prop :=
  ∀ (s : State) (w : Word), isNopWord w = true → decode w = .nop w ∧ exec (.nop w) s = .next s

/-- RET undoes CALL (R77, R79: "RET resumes after it"): after a CALL, and whatever the subroutine does that keeps SP and
the pushed slot, RET goes on at the address after the CALL with SP as before. -/
def Obligations.RetResumesAfterCall : Prop :=
  ∀ (s t t' : State) (nnn : Addr) (hi : Nibble) (h : s.sp.val < 16), exec (.call nnn) s = .next t →
    t'.sp = t.sp → t'.stack[s.sp.val] = t.stack[s.sp.val] →
    ∃ u, exec (.ret hi) t' = .next u ∧ u.pc = s.pc ∧ u.sp = s.sp

/-- A program settled at a jump to its own address stays there: any number of STEPs changes nothing, and TICKs keep it
settled (70_reset_and_hazards.md R143; "settled" is the spec's own word, decision D3). -/
def Obligations.SelfJumpSettles : Prop :=
  ∀ s : State, Settled s → (∀ n, Host.Core.run Sys2Proof.core n s = .next s) ∧ Settled (tick s)

/-! ### Arithmetic and logic (41_arithmetic_logic.md) -/

/-- LD Vx, kk (R88): V[x] is kk; no flag. -/
def Obligations.LoadImmediate : Prop :=
  ∀ (s : State) (x : RegIdx) (kk : Byte),
    ∃ t, exec (.ldVxKk x kk) s = .next t ∧ t.getV x = kk ∧ KeepsAllBut [.v x] s t

/-- ADD Vx, kk (R89): 8-bit wraparound, and VF is written only as the destination. -/
def Obligations.AddImmediateWrapsWithoutFlag : Prop :=
  ∀ (s : State) (x : RegIdx) (kk : Byte),
    ∃ t, exec (.addVxKk x kk) s = .next t ∧ (t.getV x).toNat = ((s.getV x).toNat + kk.toNat) % 256 ∧
      KeepsAllBut [.v x] s t

/-- LD, OR, AND and XOR between registers (R90 to R93): VF is 0 afterwards, for every x and y; V[x] is the result unless x
is VF itself. -/
def Obligations.LogicOpsClearVf : Prop :=
  ∀ (s : State) (x y : RegIdx),
    (∃ t, exec (.ldVxVy x y) s = .next t ∧ t.getV vf = 0#8 ∧ (x ≠ vf → t.getV x = s.getV y) ∧
      KeepsAllBut [.v x, .v vf] s t) ∧
    (∃ t, exec (.orVxVy x y) s = .next t ∧ t.getV vf = 0#8 ∧ (x ≠ vf → t.getV x = s.getV x ||| s.getV y) ∧
      KeepsAllBut [.v x, .v vf] s t) ∧
    (∃ t, exec (.andVxVy x y) s = .next t ∧ t.getV vf = 0#8 ∧ (x ≠ vf → t.getV x = s.getV x &&& s.getV y) ∧
      KeepsAllBut [.v x, .v vf] s t) ∧
    ∃ t, exec (.xorVxVy x y) s = .next t ∧ t.getV vf = 0#8 ∧ (x ≠ vf → t.getV x = s.getV x ^^^ s.getV y) ∧
      KeepsAllBut [.v x, .v vf] s t

/-- ADD Vx, Vy (R94): the sum modulo 256, VF the carry. For x = VF the flag stays and the sum is lost, which is the
spec's decision D6 (R87; log entry 10). -/
def Obligations.AddRegistersSetsCarry : Prop :=
  ∀ (s : State) (x y : RegIdx),
    ∃ t, exec (.addVxVy x y) s = .next t ∧
      t.getV vf = (if 255 < (s.getV x).toNat + (s.getV y).toNat then 1#8 else 0#8) ∧
      (x ≠ vf → (t.getV x).toNat = ((s.getV x).toNat + (s.getV y).toNat) % 256) ∧ KeepsAllBut [.v x, .v vf] s t

/-- SUB and SUBN (R95, R97): the difference modulo 256; VF is 1 exactly when the subtrahend is strictly below the
minuend, so equal operands give 0. For x = VF the flag stays (decision D6, log entry 10). -/
def Obligations.SubtractionsSetStrictFlag : Prop :=
  ∀ (s : State) (x y : RegIdx),
    (∃ t, exec (.subVxVy x y) s = .next t ∧
      t.getV vf = (if (s.getV y).toNat < (s.getV x).toNat then 1#8 else 0#8) ∧
      (x ≠ vf → ((t.getV x).toNat : Int) = ((s.getV x).toNat - (s.getV y).toNat : Int) % 256) ∧
      KeepsAllBut [.v x, .v vf] s t) ∧
    ∃ t, exec (.subnVxVy x y) s = .next t ∧
      t.getV vf = (if (s.getV x).toNat < (s.getV y).toNat then 1#8 else 0#8) ∧
      (x ≠ vf → ((t.getV x).toNat : Int) = ((s.getV y).toNat - (s.getV x).toNat : Int) % 256) ∧
      KeepsAllBut [.v x, .v vf] s t

/-- SHR and SHL (R96, R98): V[x] is V[y] shifted by 1; VF is the low, or high, bit of the ORIGINAL V[x]. For x = VF the
flag stays (decision D6, log entry 10). -/
def Obligations.ShiftsTakeSourceFromVy : Prop :=
  ∀ (s : State) (x y : RegIdx),
    (∃ t, exec (.shrVxVy x y) s = .next t ∧ (t.getV vf).toNat = (s.getV x).toNat % 2 ∧
      (x ≠ vf → (t.getV x).toNat = (s.getV y).toNat / 2) ∧ KeepsAllBut [.v x, .v vf] s t) ∧
    ∃ t, exec (.shlVxVy x y) s = .next t ∧ (t.getV vf).toNat = (s.getV x).toNat / 128 ∧
      (x ≠ vf → (t.getV x).toNat = (s.getV y).toNat * 2 % 256) ∧ KeepsAllBut [.v x, .v vf] s t

/-- RND Vx, kk (R99): V[x] is the next random input, whatever it is, under the mask kk; each execution takes a fresh input
(the model's count of them, log entry 2). The input is a free value under no law (the spec's decision D11). -/
def Obligations.RandomIsMaskedFreshInput : Prop :=
  ∀ (s : State) (x : RegIdx) (kk : Byte),
    ∃ t, exec (.rndVxKk x kk) s = .next t ∧ t.getV x = Config.randomByte s.draws &&& kk ∧
      t.draws = s.draws + 1 ∧ (kk = 0#8 → t.getV x = 0#8) ∧ KeepsAllBut [.v x, .draws] s t

/-! ### Index register and memory (42_index_memory.md) -/

/-- LD I, nnn (R101): I is the zero-extended address. -/
def Obligations.LoadIndex : Prop :=
  ∀ (s : State) (nnn : Addr),
    ∃ t, exec (.ldINnn nnn) s = .next t ∧ t.i.toNat = nnn.toNat ∧ KeepsAllBut [.i] s t

/-- ADD I, Vx (R102): 16-bit wrap, VF not written. -/
def Obligations.AddIndexWrapsWithoutFlag : Prop :=
  ∀ (s : State) (x : RegIdx),
    ∃ t, exec (.addIVx x) s = .next t ∧ t.i.toNat = (s.i.toNat + (s.getV x).toNat) % 65536 ∧ KeepsAllBut [.i] s t

/-- LD F, Vx (R103): I is five times V[x], not masked. -/
def Obligations.FontAddressIsFiveTimes : Prop :=
  ∀ (s : State) (x : RegIdx),
    ∃ t, exec (.ldFVx x) s = .next t ∧ t.i.toNat = (s.getV x).toNat * 5 ∧ KeepsAllBut [.i] s t

/-- LD B, Vx (R104): the three decimal digits of V[x] at I, I + 1, I + 2, and no other byte; I unchanged; with a byte
above 0xFFF, MemoryAccessFault and nothing written. -/
def Obligations.BcdStoresThreeDigits : Prop :=
  ∀ (s : State) (x : RegIdx),
    (s.i.toNat + 2 ≤ 0xFFF → ∃ t, exec (.ldBVx x) s = .next t ∧
      (s.mem.wf = true → t.mem.wf = true ∧ (t.mem.read s.i.toNat).toNat = (s.getV x).toNat / 100 ∧
        (t.mem.read (s.i.toNat + 1)).toNat = (s.getV x).toNat / 10 % 10 ∧
        (t.mem.read (s.i.toNat + 2)).toNat = (s.getV x).toNat % 10) ∧
      KeepsAllBut [.mem s.i.toNat, .mem (s.i.toNat + 1), .mem (s.i.toNat + 2)] s t) ∧
    (0xFFF < s.i.toNat + 2 → ∃ t, exec (.ldBVx x) s = .next t ∧
      FaultEntered 3#3 (s.pc - 2#16) (BitVec.ofNat 16 (max s.i.toNat 0x1000)) s t)

/-- LD [I], Vx (R105): V0 to Vx at I on, and no other byte; I moves by x + 1 modulo 65536; with a byte above 0xFFF,
MemoryAccessFault, nothing written and I unchanged. -/
def Obligations.StoreRegistersBlock : Prop :=
  ∀ (s : State) (x : RegIdx),
    (s.i.toNat + x.toNat ≤ 0xFFF → ∃ t, exec (.ldMemVx x) s = .next t ∧
      (s.mem.wf = true → t.mem.wf = true ∧
        ∀ r : RegIdx, r.toNat ≤ x.toNat → t.mem.read (s.i.toNat + r.toNat) = s.getV r) ∧
      t.i.toNat = (s.i.toNat + x.toNat + 1) % 65536 ∧
      KeepsOutside (fun p => p = .i ∨ ∃ k, k ≤ x.toNat ∧ p = .mem (s.i.toNat + k)) s t) ∧
    (0xFFF < s.i.toNat + x.toNat → ∃ t, exec (.ldMemVx x) s = .next t ∧
      FaultEntered 3#3 (s.pc - 2#16) (BitVec.ofNat 16 (max s.i.toNat 0x1000)) s t)

/-- LD Vx, [I] (R106): V0 to Vx are the bytes from I on, the other registers and all of memory unchanged; I moves by
x + 1 modulo 65536; with a byte above 0xFFF, MemoryAccessFault and no register changed. -/
def Obligations.LoadRegistersBlock : Prop :=
  ∀ (s : State) (x : RegIdx),
    (s.i.toNat + x.toNat ≤ 0xFFF → ∃ t, exec (.ldVxMem x) s = .next t ∧
      (∀ r : RegIdx, r.toNat ≤ x.toNat → t.getV r = s.mem.read (s.i.toNat + r.toNat)) ∧
      t.i.toNat = (s.i.toNat + x.toNat + 1) % 65536 ∧
      KeepsOutside (fun p => p = .i ∨ ∃ r : RegIdx, r.toNat ≤ x.toNat ∧ p = .v r) s t) ∧
    (0xFFF < s.i.toNat + x.toNat → ∃ t, exec (.ldVxMem x) s = .next t ∧
      FaultEntered 3#3 (s.pc - 2#16) (BitVec.ofNat 16 (max s.i.toNat 0x1000)) s t)

/-- Round trip (R106, source §8): LD [I], Vx, then I set back, then LD Vx, [I] with the same x restores V0 to Vx, whatever
is done to the registers between. -/
def Obligations.StoreThenLoadRestoresRegisters : Prop :=
  ∀ (s t t' : State) (x : RegIdx), s.mem.wf = true → s.i.toNat + x.toNat ≤ 0xFFF →
    exec (.ldMemVx x) s = .next t → t'.mem = t.mem → t'.i = s.i →
    ∃ u, exec (.ldVxMem x) t' = .next u ∧ (∀ r : RegIdx, r.toNat ≤ x.toNat → u.getV r = s.getV r) ∧
      (∀ r : RegIdx, x.toNat < r.toNat → u.getV r = t'.getV r) ∧ u.i = t.i

/-! ### Display (43_display.md) -/

/-- CLS (R109): every cell 0 and redraw set; VF not written. -/
def Obligations.ClearScreen : Prop :=
  ∀ (s : State) (hi : Nibble),
    ∃ t, exec (.cls hi) s = .next t ∧ (∀ (r : Fin 32) (c : Fin 64), t.fb[r][c] = false) ∧ t.redraw = true ∧
      KeepsOutside (fun p => p = .redraw ∨ ∃ r c, p = .cell r c) s t

/-- DRW Vx, Vy, n (R110): each cell is toggled exactly when the sprite has a 1 bit for it, clipped and not wrapped; VF is
1 exactly when some lit cell was turned off; redraw is set; all n rows are read, so a row above 0xFFF takes
MemoryAccessFault with nothing drawn, and n = 0 cannot fault. Sprite bit order and row reading are the spec's decisions
D12 and D10 (log entries 14, 15). -/
def Obligations.DrawTogglesClipsAndCollides : Prop :=
  ∀ (s : State) (x y : RegIdx) (n : Nibble),
    (n = 0#4 ∨ s.i.toNat + n.toNat ≤ 0x1000 → ∃ t, exec (.drw x y n) s = .next t ∧
      (∀ (r : Fin 32) (c : Fin 64), t.fb[r][c] = (s.fb[r][c] ^^ spriteCovers s x y n r c)) ∧
      ((∃ (r : Fin 32) (c : Fin 64), s.fb[r][c] = true ∧ t.fb[r][c] = false) → t.getV vf = 1#8) ∧
      ((∀ (r : Fin 32) (c : Fin 64), s.fb[r][c] = true → t.fb[r][c] = true) → t.getV vf = 0#8) ∧
      t.redraw = true ∧ KeepsOutside (fun p => p = .v vf ∨ p = .redraw ∨ ∃ r c, p = .cell r c) s t) ∧
    (n ≠ 0#4 → 0x1000 < s.i.toNat + n.toNat → ∃ t, exec (.drw x y n) s = .next t ∧
      FaultEntered 3#3 (s.pc - 2#16) (BitVec.ofNat 16 (max s.i.toNat 0x1000)) s t)

/-- Drawing the same sprite twice at the same place (R110): the frame buffer is as before, and the second draw's VF is 1
exactly when the sprite has a 1 bit on a cell that was dark before the first. (R110's corner line says "any 1 bit on
screen", which its operation gives only then: log entry 22.) The place is the same as long as neither coordinate is VF,
which the first draw writes. -/
def Obligations.DrawTwiceRestoresScreen : Prop :=
  ∀ (s t u : State) (x y : RegIdx) (n : Nibble), x ≠ vf → y ≠ vf → (n = 0#4 ∨ s.i.toNat + n.toNat ≤ 0x1000) →
    exec (.drw x y n) s = .next t → exec (.drw x y n) t = .next u →
    (∀ (r : Fin 32) (c : Fin 64), u.fb[r][c] = s.fb[r][c]) ∧
    ((∃ (r : Fin 32) (c : Fin 64), spriteCovers s x y n r c = true ∧ s.fb[r][c] = false) → u.getV vf = 1#8) ∧
    ((∀ (r : Fin 32) (c : Fin 64), spriteCovers s x y n r c = true → s.fb[r][c] = true) → u.getV vf = 0#8)

/-! ### Timers and input (44_timers_input.md) -/

/-- SKP and SKNP (R111, R112): the skip follows the key numbered V[x], key 0xF included; an index above 0xF takes
KeyIndexFault with that index (the spec's decision D5, log entry 13). -/
def Obligations.KeySkips : Prop :=
  ∀ (s : State) (x : RegIdx),
    (∀ h : (s.getV x).toNat < 16,
      (∃ t, exec (.skpVx x) s = .next t ∧
        t.pc = (if s.key[(s.getV x).toNat] then s.pc + 2#16 else s.pc) ∧ KeepsAllBut [.pc] s t) ∧
      ∃ t, exec (.sknpVx x) s = .next t ∧
        t.pc = (if s.key[(s.getV x).toNat] then s.pc else s.pc + 2#16) ∧ KeepsAllBut [.pc] s t) ∧
    (0xF < (s.getV x).toNat →
      (∃ t, exec (.skpVx x) s = .next t ∧
        FaultEntered 4#3 (s.pc - 2#16) (BitVec.ofNat 16 (s.getV x).toNat) s t) ∧
      ∃ t, exec (.sknpVx x) s = .next t ∧
        FaultEntered 4#3 (s.pc - 2#16) (BitVec.ofNat 16 (s.getV x).toNat) s t)

/-- LD Vx, DT (R113): V[x] is the delay timer. -/
def Obligations.ReadDelayTimer : Prop :=
  ∀ (s : State) (x : RegIdx),
    ∃ t, exec (.ldVxDt x) s = .next t ∧ t.getV x = s.dt ∧ KeepsAllBut [.v x] s t

/-- LD Vx, K (R114): with a key of 0x0 to 0xE pressed, V[x] is the lowest one and pc is past the instruction; with none
pressed, pc is back at the instruction and nothing else changes, key 0xF notwithstanding. -/
def Obligations.WaitKeyTakesLowestOrRepeats : Prop :=
  ∀ (s : State) (x : RegIdx),
    (∀ k : Fin 15, s.key[k.val] = true → (∀ j : Fin 15, j < k → s.key[j.val] = false) →
      ∃ t, exec (.ldVxK x) s = .next t ∧ (t.getV x).toNat = k.val ∧ KeepsAllBut [.v x] s t) ∧
    ((∀ k : Fin 15, s.key[k.val] = false) →
      ∃ t, exec (.ldVxK x) s = .next t ∧ t.pc = s.pc - 2#16 ∧ KeepsAllBut [.pc] s t)

/-- LD DT, Vx and LD ST, Vx (R115, R116): the named timer is V[x]. -/
def Obligations.SetTimers : Prop :=
  ∀ (s : State) (x : RegIdx),
    (∃ t, exec (.ldDtVx x) s = .next t ∧ t.dt = s.getV x ∧ KeepsAllBut [.dt] s t) ∧
    ∃ t, exec (.ldStVx x) s = .next t ∧ t.st = s.getV x ∧ KeepsAllBut [.st] s t
end

