-- ==== Sys2Proof/Laws/Decode.lean ====
section
/-! SUPPORT. The fields of a composed word and the word composed of its fields: each field of each format once, for the
round-trip lemmas of Laws/PerInstr.lean. -/

namespace Sys2Proof.Laws

/-- A field that lies in the upper part of a concatenation. -/
theorem extract_upper {a b : Nat} (u : BitVec a) (l : BitVec b) (k n : Nat) (h : b ≤ k) :
    (u ++ l).extractLsb' k n = u.extractLsb' (k - b) n := by
  ext j hj
  simp only [BitVec.getElem_extractLsb', BitVec.getLsbD_append, show ¬ k + j < b by omega,
    if_false]
  congr 1
  omega

/-- A field that lies in the lower part of a concatenation. -/
theorem extract_lower {a b : Nat} (u : BitVec a) (l : BitVec b) (k n : Nat) (h : k + n ≤ b) :
    (u ++ l).extractLsb' k n = l.extractLsb' k n := by
  ext j hj
  simp [BitVec.getLsbD_append, show k + j < b by omega]

theorem extract_all {n : Nat} (w : BitVec n) : w.extractLsb' 0 n = w := by
  ext j hj
  simp

/-- Two adjacent fields together are one field. -/
theorem extract_append {n : Nat} (w : BitVec n) (k a b : Nat) :
    w.extractLsb' (k + b) a ++ w.extractLsb' k b = w.extractLsb' k (a + b) := by
  ext j hj
  simp only [BitVec.getElem_append, BitVec.getElem_extractLsb']
  split
  · rfl
  · congr 1
    omega

/-! ### Fields of the composed words (30_encoding.md R62, R63) -/

section
variable (c x y n : Nibble) (kk : Byte) (nnn : Addr)

@[simp] theorem fieldClass_formatA : fieldClass (formatA c nnn) = c :=
  (extract_upper c nnn 12 4 (by decide)).trans (extract_all c)
@[simp] theorem fieldNnn_formatA : fieldNnn (formatA c nnn) = nnn :=
  (extract_lower c nnn 0 12 (by decide)).trans (extract_all nnn)
@[simp] theorem fieldClass_formatXK : fieldClass (formatXK c x kk) = c :=
  (extract_upper (c ++ x) kk 12 4 (by decide)).trans ((extract_upper c x 4 4 (by decide)).trans (extract_all c))
@[simp] theorem fieldX_formatXK : fieldX (formatXK c x kk) = x :=
  (extract_upper (c ++ x) kk 8 4 (by decide)).trans ((extract_lower c x 0 4 (by decide)).trans (extract_all x))
@[simp] theorem fieldKk_formatXK : fieldKk (formatXK c x kk) = kk :=
  (extract_lower (c ++ x) kk 0 8 (by decide)).trans (extract_all kk)
@[simp] theorem fieldClass_formatXYN : fieldClass (formatXYN c x y n) = c :=
  (extract_upper (c ++ x ++ y) n 12 4 (by decide)).trans
    ((extract_upper (c ++ x) y 8 4 (by decide)).trans ((extract_upper c x 4 4 (by decide)).trans (extract_all c)))
@[simp] theorem fieldX_formatXYN : fieldX (formatXYN c x y n) = x :=
  (extract_upper (c ++ x ++ y) n 8 4 (by decide)).trans
    ((extract_upper (c ++ x) y 4 4 (by decide)).trans ((extract_lower c x 0 4 (by decide)).trans (extract_all x)))
@[simp] theorem fieldY_formatXYN : fieldY (formatXYN c x y n) = y :=
  (extract_upper (c ++ x ++ y) n 4 4 (by decide)).trans
    ((extract_lower (c ++ x) y 0 4 (by decide)).trans (extract_all y))
@[simp] theorem fieldN_formatXYN : fieldN (formatXYN c x y n) = n :=
  (extract_lower (c ++ x ++ y) n 0 4 (by decide)).trans (extract_all n)

/-! ### A word composed of its own fields -/

theorem formatA_fields (w : Word) : formatA (fieldClass w) (fieldNnn w) = w :=
  (extract_append w 0 4 12).trans (extract_all w)
theorem formatXK_fields (w : Word) : formatXK (fieldClass w) (fieldX w) (fieldKk w) = w :=
  (congrArg (· ++ w.extractLsb' 0 8) (extract_append w 8 4 4)).trans ((extract_append w 0 8 8).trans (extract_all w))
theorem formatXYN_fields (w : Word) : formatXYN (fieldClass w) (fieldX w) (fieldY w) (fieldN w) = w :=
  (congrArg (fun u : BitVec 8 => u ++ w.extractLsb' 4 4 ++ w.extractLsb' 0 4) (extract_append w 8 4 4)).trans
    ((congrArg (fun u : BitVec 12 => u ++ w.extractLsb' 0 4) (extract_append w 4 8 4)).trans
      ((extract_append w 0 12 4).trans (extract_all w)))

/-- The bytes of a word in memory order give the word back (20_memory.md R47). -/
theorem wordOfBytes_bytes (w : Word) : wordOfBytes (w.extractLsb' 8 8) (w.extractLsb' 0 8) = w :=
  (extract_append w 0 8 8).trans (extract_all w)

theorem decodeBytes_bytesOfWord (w : Word) (rest : List Byte) :
    decodeBytes (bytesOfWord w ++ rest) = .ok (decode w, rest) := by
  show Except.ok (decode (wordOfBytes (w.extractLsb' 8 8) (w.extractLsb' 0 8)), rest) = _
  rw [wordOfBytes_bytes]

end

end Sys2Proof.Laws
end

