-- ==== Sys2Proof/Laws/State.lean ====
section
/-! SUPPORT. One lemma per field per update of State, so that no later proof unfolds a record update; and the two laws
of the register file. -/

namespace Sys2Proof.Machine

/-! `setV` -/

@[simp] theorem State.setV_v (s : State) (r : RegIdx) (b : Byte) : (s.setV r b).v = s.v.set r.toNat b r.isLt := rfl
@[simp] theorem State.setV_i (s : State) (r : RegIdx) (b : Byte) : (s.setV r b).i = s.i := rfl
@[simp] theorem State.setV_pc (s : State) (r : RegIdx) (b : Byte) : (s.setV r b).pc = s.pc := rfl
@[simp] theorem State.setV_sp (s : State) (r : RegIdx) (b : Byte) : (s.setV r b).sp = s.sp := rfl
@[simp] theorem State.setV_stack (s : State) (r : RegIdx) (b : Byte) : (s.setV r b).stack = s.stack := rfl
@[simp] theorem State.setV_dt (s : State) (r : RegIdx) (b : Byte) : (s.setV r b).dt = s.dt := rfl
@[simp] theorem State.setV_st (s : State) (r : RegIdx) (b : Byte) : (s.setV r b).st = s.st := rfl
@[simp] theorem State.setV_fb (s : State) (r : RegIdx) (b : Byte) : (s.setV r b).fb = s.fb := rfl
@[simp] theorem State.setV_redraw (s : State) (r : RegIdx) (b : Byte) : (s.setV r b).redraw = s.redraw := rfl
@[simp] theorem State.setV_key (s : State) (r : RegIdx) (b : Byte) : (s.setV r b).key = s.key := rfl
@[simp] theorem State.setV_mem (s : State) (r : RegIdx) (b : Byte) : (s.setV r b).mem = s.mem := rfl
@[simp] theorem State.setV_faulted (s : State) (r : RegIdx) (b : Byte) : (s.setV r b).faulted = s.faulted := rfl
@[simp] theorem State.setV_faultCode (s : State) (r : RegIdx) (b : Byte) : (s.setV r b).faultCode = s.faultCode := rfl
@[simp] theorem State.setV_faultPc (s : State) (r : RegIdx) (b : Byte) : (s.setV r b).faultPc = s.faultPc := rfl
@[simp] theorem State.setV_faultInfo (s : State) (r : RegIdx) (b : Byte) : (s.setV r b).faultInfo = s.faultInfo := rfl
@[simp] theorem State.setV_draws (s : State) (r : RegIdx) (b : Byte) : (s.setV r b).draws = s.draws := rfl

/-! `setRegs` -/

@[simp] theorem State.setRegs_v (s : State) (regs : Vector Byte 16) : (s.setRegs regs).v = regs := rfl
@[simp] theorem State.setRegs_i (s : State) (regs : Vector Byte 16) : (s.setRegs regs).i = s.i := rfl
@[simp] theorem State.setRegs_pc (s : State) (regs : Vector Byte 16) : (s.setRegs regs).pc = s.pc := rfl
@[simp] theorem State.setRegs_sp (s : State) (regs : Vector Byte 16) : (s.setRegs regs).sp = s.sp := rfl
@[simp] theorem State.setRegs_stack (s : State) (regs : Vector Byte 16) : (s.setRegs regs).stack = s.stack := rfl
@[simp] theorem State.setRegs_dt (s : State) (regs : Vector Byte 16) : (s.setRegs regs).dt = s.dt := rfl
@[simp] theorem State.setRegs_st (s : State) (regs : Vector Byte 16) : (s.setRegs regs).st = s.st := rfl
@[simp] theorem State.setRegs_fb (s : State) (regs : Vector Byte 16) : (s.setRegs regs).fb = s.fb := rfl
@[simp] theorem State.setRegs_redraw (s : State) (regs : Vector Byte 16) : (s.setRegs regs).redraw = s.redraw := rfl
@[simp] theorem State.setRegs_key (s : State) (regs : Vector Byte 16) : (s.setRegs regs).key = s.key := rfl
@[simp] theorem State.setRegs_mem (s : State) (regs : Vector Byte 16) : (s.setRegs regs).mem = s.mem := rfl
@[simp] theorem State.setRegs_faulted (s : State) (regs : Vector Byte 16) : (s.setRegs regs).faulted = s.faulted := rfl
@[simp] theorem State.setRegs_faultCode (s : State) (regs : Vector Byte 16) : (s.setRegs regs).faultCode = s.faultCode := rfl
@[simp] theorem State.setRegs_faultPc (s : State) (regs : Vector Byte 16) : (s.setRegs regs).faultPc = s.faultPc := rfl
@[simp] theorem State.setRegs_faultInfo (s : State) (regs : Vector Byte 16) : (s.setRegs regs).faultInfo = s.faultInfo := rfl
@[simp] theorem State.setRegs_draws (s : State) (regs : Vector Byte 16) : (s.setRegs regs).draws = s.draws := rfl

/-! `setI` -/

@[simp] theorem State.setI_v (s : State) (a : Word) : (s.setI a).v = s.v := rfl
@[simp] theorem State.setI_i (s : State) (a : Word) : (s.setI a).i = a := rfl
@[simp] theorem State.setI_pc (s : State) (a : Word) : (s.setI a).pc = s.pc := rfl
@[simp] theorem State.setI_sp (s : State) (a : Word) : (s.setI a).sp = s.sp := rfl
@[simp] theorem State.setI_stack (s : State) (a : Word) : (s.setI a).stack = s.stack := rfl
@[simp] theorem State.setI_dt (s : State) (a : Word) : (s.setI a).dt = s.dt := rfl
@[simp] theorem State.setI_st (s : State) (a : Word) : (s.setI a).st = s.st := rfl
@[simp] theorem State.setI_fb (s : State) (a : Word) : (s.setI a).fb = s.fb := rfl
@[simp] theorem State.setI_redraw (s : State) (a : Word) : (s.setI a).redraw = s.redraw := rfl
@[simp] theorem State.setI_key (s : State) (a : Word) : (s.setI a).key = s.key := rfl
@[simp] theorem State.setI_mem (s : State) (a : Word) : (s.setI a).mem = s.mem := rfl
@[simp] theorem State.setI_faulted (s : State) (a : Word) : (s.setI a).faulted = s.faulted := rfl
@[simp] theorem State.setI_faultCode (s : State) (a : Word) : (s.setI a).faultCode = s.faultCode := rfl
@[simp] theorem State.setI_faultPc (s : State) (a : Word) : (s.setI a).faultPc = s.faultPc := rfl
@[simp] theorem State.setI_faultInfo (s : State) (a : Word) : (s.setI a).faultInfo = s.faultInfo := rfl
@[simp] theorem State.setI_draws (s : State) (a : Word) : (s.setI a).draws = s.draws := rfl
@[simp] theorem State.getV_setI (s : State) (a : Word) (x : RegIdx) : (s.setI a).getV x = s.getV x := rfl

/-! `setPc` -/

@[simp] theorem State.setPc_v (s : State) (a : Word) : (s.setPc a).v = s.v := rfl
@[simp] theorem State.setPc_i (s : State) (a : Word) : (s.setPc a).i = s.i := rfl
@[simp] theorem State.setPc_pc (s : State) (a : Word) : (s.setPc a).pc = a := rfl
@[simp] theorem State.setPc_sp (s : State) (a : Word) : (s.setPc a).sp = s.sp := rfl
@[simp] theorem State.setPc_stack (s : State) (a : Word) : (s.setPc a).stack = s.stack := rfl
@[simp] theorem State.setPc_dt (s : State) (a : Word) : (s.setPc a).dt = s.dt := rfl
@[simp] theorem State.setPc_st (s : State) (a : Word) : (s.setPc a).st = s.st := rfl
@[simp] theorem State.setPc_fb (s : State) (a : Word) : (s.setPc a).fb = s.fb := rfl
@[simp] theorem State.setPc_redraw (s : State) (a : Word) : (s.setPc a).redraw = s.redraw := rfl
@[simp] theorem State.setPc_key (s : State) (a : Word) : (s.setPc a).key = s.key := rfl
@[simp] theorem State.setPc_mem (s : State) (a : Word) : (s.setPc a).mem = s.mem := rfl
@[simp] theorem State.setPc_faulted (s : State) (a : Word) : (s.setPc a).faulted = s.faulted := rfl
@[simp] theorem State.setPc_faultCode (s : State) (a : Word) : (s.setPc a).faultCode = s.faultCode := rfl
@[simp] theorem State.setPc_faultPc (s : State) (a : Word) : (s.setPc a).faultPc = s.faultPc := rfl
@[simp] theorem State.setPc_faultInfo (s : State) (a : Word) : (s.setPc a).faultInfo = s.faultInfo := rfl
@[simp] theorem State.setPc_draws (s : State) (a : Word) : (s.setPc a).draws = s.draws := rfl
@[simp] theorem State.getV_setPc (s : State) (a : Word) (x : RegIdx) : (s.setPc a).getV x = s.getV x := rfl

/-! `setDt` -/

@[simp] theorem State.setDt_v (s : State) (b : Byte) : (s.setDt b).v = s.v := rfl
@[simp] theorem State.setDt_i (s : State) (b : Byte) : (s.setDt b).i = s.i := rfl
@[simp] theorem State.setDt_pc (s : State) (b : Byte) : (s.setDt b).pc = s.pc := rfl
@[simp] theorem State.setDt_sp (s : State) (b : Byte) : (s.setDt b).sp = s.sp := rfl
@[simp] theorem State.setDt_stack (s : State) (b : Byte) : (s.setDt b).stack = s.stack := rfl
@[simp] theorem State.setDt_dt (s : State) (b : Byte) : (s.setDt b).dt = b := rfl
@[simp] theorem State.setDt_st (s : State) (b : Byte) : (s.setDt b).st = s.st := rfl
@[simp] theorem State.setDt_fb (s : State) (b : Byte) : (s.setDt b).fb = s.fb := rfl
@[simp] theorem State.setDt_redraw (s : State) (b : Byte) : (s.setDt b).redraw = s.redraw := rfl
@[simp] theorem State.setDt_key (s : State) (b : Byte) : (s.setDt b).key = s.key := rfl
@[simp] theorem State.setDt_mem (s : State) (b : Byte) : (s.setDt b).mem = s.mem := rfl
@[simp] theorem State.setDt_faulted (s : State) (b : Byte) : (s.setDt b).faulted = s.faulted := rfl
@[simp] theorem State.setDt_faultCode (s : State) (b : Byte) : (s.setDt b).faultCode = s.faultCode := rfl
@[simp] theorem State.setDt_faultPc (s : State) (b : Byte) : (s.setDt b).faultPc = s.faultPc := rfl
@[simp] theorem State.setDt_faultInfo (s : State) (b : Byte) : (s.setDt b).faultInfo = s.faultInfo := rfl
@[simp] theorem State.setDt_draws (s : State) (b : Byte) : (s.setDt b).draws = s.draws := rfl
@[simp] theorem State.getV_setDt (s : State) (b : Byte) (x : RegIdx) : (s.setDt b).getV x = s.getV x := rfl

/-! `setSt` -/

@[simp] theorem State.setSt_v (s : State) (b : Byte) : (s.setSt b).v = s.v := rfl
@[simp] theorem State.setSt_i (s : State) (b : Byte) : (s.setSt b).i = s.i := rfl
@[simp] theorem State.setSt_pc (s : State) (b : Byte) : (s.setSt b).pc = s.pc := rfl
@[simp] theorem State.setSt_sp (s : State) (b : Byte) : (s.setSt b).sp = s.sp := rfl
@[simp] theorem State.setSt_stack (s : State) (b : Byte) : (s.setSt b).stack = s.stack := rfl
@[simp] theorem State.setSt_dt (s : State) (b : Byte) : (s.setSt b).dt = s.dt := rfl
@[simp] theorem State.setSt_st (s : State) (b : Byte) : (s.setSt b).st = b := rfl
@[simp] theorem State.setSt_fb (s : State) (b : Byte) : (s.setSt b).fb = s.fb := rfl
@[simp] theorem State.setSt_redraw (s : State) (b : Byte) : (s.setSt b).redraw = s.redraw := rfl
@[simp] theorem State.setSt_key (s : State) (b : Byte) : (s.setSt b).key = s.key := rfl
@[simp] theorem State.setSt_mem (s : State) (b : Byte) : (s.setSt b).mem = s.mem := rfl
@[simp] theorem State.setSt_faulted (s : State) (b : Byte) : (s.setSt b).faulted = s.faulted := rfl
@[simp] theorem State.setSt_faultCode (s : State) (b : Byte) : (s.setSt b).faultCode = s.faultCode := rfl
@[simp] theorem State.setSt_faultPc (s : State) (b : Byte) : (s.setSt b).faultPc = s.faultPc := rfl
@[simp] theorem State.setSt_faultInfo (s : State) (b : Byte) : (s.setSt b).faultInfo = s.faultInfo := rfl
@[simp] theorem State.setSt_draws (s : State) (b : Byte) : (s.setSt b).draws = s.draws := rfl
@[simp] theorem State.getV_setSt (s : State) (b : Byte) (x : RegIdx) : (s.setSt b).getV x = s.getV x := rfl

/-! `setMem` -/

@[simp] theorem State.setMem_v (s : State) (m : Memory) : (s.setMem m).v = s.v := rfl
@[simp] theorem State.setMem_i (s : State) (m : Memory) : (s.setMem m).i = s.i := rfl
@[simp] theorem State.setMem_pc (s : State) (m : Memory) : (s.setMem m).pc = s.pc := rfl
@[simp] theorem State.setMem_sp (s : State) (m : Memory) : (s.setMem m).sp = s.sp := rfl
@[simp] theorem State.setMem_stack (s : State) (m : Memory) : (s.setMem m).stack = s.stack := rfl
@[simp] theorem State.setMem_dt (s : State) (m : Memory) : (s.setMem m).dt = s.dt := rfl
@[simp] theorem State.setMem_st (s : State) (m : Memory) : (s.setMem m).st = s.st := rfl
@[simp] theorem State.setMem_fb (s : State) (m : Memory) : (s.setMem m).fb = s.fb := rfl
@[simp] theorem State.setMem_redraw (s : State) (m : Memory) : (s.setMem m).redraw = s.redraw := rfl
@[simp] theorem State.setMem_key (s : State) (m : Memory) : (s.setMem m).key = s.key := rfl
@[simp] theorem State.setMem_mem (s : State) (m : Memory) : (s.setMem m).mem = m := rfl
@[simp] theorem State.setMem_faulted (s : State) (m : Memory) : (s.setMem m).faulted = s.faulted := rfl
@[simp] theorem State.setMem_faultCode (s : State) (m : Memory) : (s.setMem m).faultCode = s.faultCode := rfl
@[simp] theorem State.setMem_faultPc (s : State) (m : Memory) : (s.setMem m).faultPc = s.faultPc := rfl
@[simp] theorem State.setMem_faultInfo (s : State) (m : Memory) : (s.setMem m).faultInfo = s.faultInfo := rfl
@[simp] theorem State.setMem_draws (s : State) (m : Memory) : (s.setMem m).draws = s.draws := rfl
@[simp] theorem State.getV_setMem (s : State) (m : Memory) (x : RegIdx) : (s.setMem m).getV x = s.getV x := rfl

/-! `setScreen` -/

@[simp] theorem State.setScreen_v (s : State) (f : Screen) : (s.setScreen f).v = s.v := rfl
@[simp] theorem State.setScreen_i (s : State) (f : Screen) : (s.setScreen f).i = s.i := rfl
@[simp] theorem State.setScreen_pc (s : State) (f : Screen) : (s.setScreen f).pc = s.pc := rfl
@[simp] theorem State.setScreen_sp (s : State) (f : Screen) : (s.setScreen f).sp = s.sp := rfl
@[simp] theorem State.setScreen_stack (s : State) (f : Screen) : (s.setScreen f).stack = s.stack := rfl
@[simp] theorem State.setScreen_dt (s : State) (f : Screen) : (s.setScreen f).dt = s.dt := rfl
@[simp] theorem State.setScreen_st (s : State) (f : Screen) : (s.setScreen f).st = s.st := rfl
@[simp] theorem State.setScreen_fb (s : State) (f : Screen) : (s.setScreen f).fb = f := rfl
@[simp] theorem State.setScreen_redraw (s : State) (f : Screen) : (s.setScreen f).redraw = true := rfl
@[simp] theorem State.setScreen_key (s : State) (f : Screen) : (s.setScreen f).key = s.key := rfl
@[simp] theorem State.setScreen_mem (s : State) (f : Screen) : (s.setScreen f).mem = s.mem := rfl
@[simp] theorem State.setScreen_faulted (s : State) (f : Screen) : (s.setScreen f).faulted = s.faulted := rfl
@[simp] theorem State.setScreen_faultCode (s : State) (f : Screen) : (s.setScreen f).faultCode = s.faultCode := rfl
@[simp] theorem State.setScreen_faultPc (s : State) (f : Screen) : (s.setScreen f).faultPc = s.faultPc := rfl
@[simp] theorem State.setScreen_faultInfo (s : State) (f : Screen) : (s.setScreen f).faultInfo = s.faultInfo := rfl
@[simp] theorem State.setScreen_draws (s : State) (f : Screen) : (s.setScreen f).draws = s.draws := rfl
@[simp] theorem State.getV_setScreen (s : State) (f : Screen) (x : RegIdx) : (s.setScreen f).getV x = s.getV x := rfl

/-! `countDraw` -/

@[simp] theorem State.countDraw_v (s : State)  : (s.countDraw).v = s.v := rfl
@[simp] theorem State.countDraw_i (s : State)  : (s.countDraw).i = s.i := rfl
@[simp] theorem State.countDraw_pc (s : State)  : (s.countDraw).pc = s.pc := rfl
@[simp] theorem State.countDraw_sp (s : State)  : (s.countDraw).sp = s.sp := rfl
@[simp] theorem State.countDraw_stack (s : State)  : (s.countDraw).stack = s.stack := rfl
@[simp] theorem State.countDraw_dt (s : State)  : (s.countDraw).dt = s.dt := rfl
@[simp] theorem State.countDraw_st (s : State)  : (s.countDraw).st = s.st := rfl
@[simp] theorem State.countDraw_fb (s : State)  : (s.countDraw).fb = s.fb := rfl
@[simp] theorem State.countDraw_redraw (s : State)  : (s.countDraw).redraw = s.redraw := rfl
@[simp] theorem State.countDraw_key (s : State)  : (s.countDraw).key = s.key := rfl
@[simp] theorem State.countDraw_mem (s : State)  : (s.countDraw).mem = s.mem := rfl
@[simp] theorem State.countDraw_faulted (s : State)  : (s.countDraw).faulted = s.faulted := rfl
@[simp] theorem State.countDraw_faultCode (s : State)  : (s.countDraw).faultCode = s.faultCode := rfl
@[simp] theorem State.countDraw_faultPc (s : State)  : (s.countDraw).faultPc = s.faultPc := rfl
@[simp] theorem State.countDraw_faultInfo (s : State)  : (s.countDraw).faultInfo = s.faultInfo := rfl
@[simp] theorem State.countDraw_draws (s : State)  : (s.countDraw).draws = s.draws + 1 := rfl
@[simp] theorem State.getV_countDraw (s : State)  (x : RegIdx) : (s.countDraw).getV x = s.getV x := rfl

/-! `pushPc` -/

@[simp] theorem State.pushPc_v (s : State) (h : s.sp.val < 16) : (s.pushPc h).v = s.v := rfl
@[simp] theorem State.pushPc_i (s : State) (h : s.sp.val < 16) : (s.pushPc h).i = s.i := rfl
@[simp] theorem State.pushPc_pc (s : State) (h : s.sp.val < 16) : (s.pushPc h).pc = s.pc := rfl
@[simp] theorem State.pushPc_sp (s : State) (h : s.sp.val < 16) : (s.pushPc h).sp = ⟨s.sp.val + 1, Nat.succ_lt_succ h⟩ := rfl
@[simp] theorem State.pushPc_stack (s : State) (h : s.sp.val < 16) : (s.pushPc h).stack = s.stack.set s.sp.val s.pc h := rfl
@[simp] theorem State.pushPc_dt (s : State) (h : s.sp.val < 16) : (s.pushPc h).dt = s.dt := rfl
@[simp] theorem State.pushPc_st (s : State) (h : s.sp.val < 16) : (s.pushPc h).st = s.st := rfl
@[simp] theorem State.pushPc_fb (s : State) (h : s.sp.val < 16) : (s.pushPc h).fb = s.fb := rfl
@[simp] theorem State.pushPc_redraw (s : State) (h : s.sp.val < 16) : (s.pushPc h).redraw = s.redraw := rfl
@[simp] theorem State.pushPc_key (s : State) (h : s.sp.val < 16) : (s.pushPc h).key = s.key := rfl
@[simp] theorem State.pushPc_mem (s : State) (h : s.sp.val < 16) : (s.pushPc h).mem = s.mem := rfl
@[simp] theorem State.pushPc_faulted (s : State) (h : s.sp.val < 16) : (s.pushPc h).faulted = s.faulted := rfl
@[simp] theorem State.pushPc_faultCode (s : State) (h : s.sp.val < 16) : (s.pushPc h).faultCode = s.faultCode := rfl
@[simp] theorem State.pushPc_faultPc (s : State) (h : s.sp.val < 16) : (s.pushPc h).faultPc = s.faultPc := rfl
@[simp] theorem State.pushPc_faultInfo (s : State) (h : s.sp.val < 16) : (s.pushPc h).faultInfo = s.faultInfo := rfl
@[simp] theorem State.pushPc_draws (s : State) (h : s.sp.val < 16) : (s.pushPc h).draws = s.draws := rfl
@[simp] theorem State.getV_pushPc (s : State) (h : s.sp.val < 16) (x : RegIdx) : (s.pushPc h).getV x = s.getV x := rfl

/-! `popPc` -/

@[simp] theorem State.popPc_v (s : State) (h : 0 < s.sp.val) : (s.popPc h).v = s.v := rfl
@[simp] theorem State.popPc_i (s : State) (h : 0 < s.sp.val) : (s.popPc h).i = s.i := rfl
@[simp] theorem State.popPc_pc (s : State) (h : 0 < s.sp.val) : (s.popPc h).pc = s.stack[s.sp.val - 1]'(by omega) := rfl
@[simp] theorem State.popPc_sp (s : State) (h : 0 < s.sp.val) : (s.popPc h).sp = ⟨s.sp.val - 1, by omega⟩ := rfl
@[simp] theorem State.popPc_stack (s : State) (h : 0 < s.sp.val) : (s.popPc h).stack = s.stack := rfl
@[simp] theorem State.popPc_dt (s : State) (h : 0 < s.sp.val) : (s.popPc h).dt = s.dt := rfl
@[simp] theorem State.popPc_st (s : State) (h : 0 < s.sp.val) : (s.popPc h).st = s.st := rfl
@[simp] theorem State.popPc_fb (s : State) (h : 0 < s.sp.val) : (s.popPc h).fb = s.fb := rfl
@[simp] theorem State.popPc_redraw (s : State) (h : 0 < s.sp.val) : (s.popPc h).redraw = s.redraw := rfl
@[simp] theorem State.popPc_key (s : State) (h : 0 < s.sp.val) : (s.popPc h).key = s.key := rfl
@[simp] theorem State.popPc_mem (s : State) (h : 0 < s.sp.val) : (s.popPc h).mem = s.mem := rfl
@[simp] theorem State.popPc_faulted (s : State) (h : 0 < s.sp.val) : (s.popPc h).faulted = s.faulted := rfl
@[simp] theorem State.popPc_faultCode (s : State) (h : 0 < s.sp.val) : (s.popPc h).faultCode = s.faultCode := rfl
@[simp] theorem State.popPc_faultPc (s : State) (h : 0 < s.sp.val) : (s.popPc h).faultPc = s.faultPc := rfl
@[simp] theorem State.popPc_faultInfo (s : State) (h : 0 < s.sp.val) : (s.popPc h).faultInfo = s.faultInfo := rfl
@[simp] theorem State.popPc_draws (s : State) (h : 0 < s.sp.val) : (s.popPc h).draws = s.draws := rfl
@[simp] theorem State.getV_popPc (s : State) (h : 0 < s.sp.val) (x : RegIdx) : (s.popPc h).getV x = s.getV x := rfl

/-! `enterFault` -/

@[simp] theorem State.enterFault_v (s : State) (cause : FaultCause) (a info : Word) : (s.enterFault cause a info).v = s.v := rfl
@[simp] theorem State.enterFault_i (s : State) (cause : FaultCause) (a info : Word) : (s.enterFault cause a info).i = s.i := rfl
@[simp] theorem State.enterFault_pc (s : State) (cause : FaultCause) (a info : Word) : (s.enterFault cause a info).pc = a := rfl
@[simp] theorem State.enterFault_sp (s : State) (cause : FaultCause) (a info : Word) : (s.enterFault cause a info).sp = s.sp := rfl
@[simp] theorem State.enterFault_stack (s : State) (cause : FaultCause) (a info : Word) : (s.enterFault cause a info).stack = s.stack := rfl
@[simp] theorem State.enterFault_dt (s : State) (cause : FaultCause) (a info : Word) : (s.enterFault cause a info).dt = s.dt := rfl
@[simp] theorem State.enterFault_st (s : State) (cause : FaultCause) (a info : Word) : (s.enterFault cause a info).st = s.st := rfl
@[simp] theorem State.enterFault_fb (s : State) (cause : FaultCause) (a info : Word) : (s.enterFault cause a info).fb = s.fb := rfl
@[simp] theorem State.enterFault_redraw (s : State) (cause : FaultCause) (a info : Word) : (s.enterFault cause a info).redraw = s.redraw := rfl
@[simp] theorem State.enterFault_key (s : State) (cause : FaultCause) (a info : Word) : (s.enterFault cause a info).key = s.key := rfl
@[simp] theorem State.enterFault_mem (s : State) (cause : FaultCause) (a info : Word) : (s.enterFault cause a info).mem = s.mem := rfl
@[simp] theorem State.enterFault_faulted (s : State) (cause : FaultCause) (a info : Word) : (s.enterFault cause a info).faulted = true := rfl
@[simp] theorem State.enterFault_faultCode (s : State) (cause : FaultCause) (a info : Word) : (s.enterFault cause a info).faultCode = cause.code := rfl
@[simp] theorem State.enterFault_faultPc (s : State) (cause : FaultCause) (a info : Word) : (s.enterFault cause a info).faultPc = a := rfl
@[simp] theorem State.enterFault_faultInfo (s : State) (cause : FaultCause) (a info : Word) : (s.enterFault cause a info).faultInfo = info := rfl
@[simp] theorem State.enterFault_draws (s : State) (cause : FaultCause) (a info : Word) : (s.enterFault cause a info).draws = s.draws := rfl
@[simp] theorem State.getV_enterFault (s : State) (cause : FaultCause) (a info : Word) (x : RegIdx) : (s.enterFault cause a info).getV x = s.getV x := rfl

/-! `skipIf` -/

@[simp] theorem State.skipIf_v (s : State) (c : Bool) : (s.skipIf c).v = s.v := by
  unfold State.skipIf; split <;> rfl
@[simp] theorem State.skipIf_i (s : State) (c : Bool) : (s.skipIf c).i = s.i := by
  unfold State.skipIf; split <;> rfl
@[simp] theorem State.skipIf_pc (s : State) (c : Bool) : (s.skipIf c).pc = if c then s.pc + 2#16 else s.pc := by
  unfold State.skipIf; split <;> rfl
@[simp] theorem State.skipIf_sp (s : State) (c : Bool) : (s.skipIf c).sp = s.sp := by
  unfold State.skipIf; split <;> rfl
@[simp] theorem State.skipIf_stack (s : State) (c : Bool) : (s.skipIf c).stack = s.stack := by
  unfold State.skipIf; split <;> rfl
@[simp] theorem State.skipIf_dt (s : State) (c : Bool) : (s.skipIf c).dt = s.dt := by
  unfold State.skipIf; split <;> rfl
@[simp] theorem State.skipIf_st (s : State) (c : Bool) : (s.skipIf c).st = s.st := by
  unfold State.skipIf; split <;> rfl
@[simp] theorem State.skipIf_fb (s : State) (c : Bool) : (s.skipIf c).fb = s.fb := by
  unfold State.skipIf; split <;> rfl
@[simp] theorem State.skipIf_redraw (s : State) (c : Bool) : (s.skipIf c).redraw = s.redraw := by
  unfold State.skipIf; split <;> rfl
@[simp] theorem State.skipIf_key (s : State) (c : Bool) : (s.skipIf c).key = s.key := by
  unfold State.skipIf; split <;> rfl
@[simp] theorem State.skipIf_mem (s : State) (c : Bool) : (s.skipIf c).mem = s.mem := by
  unfold State.skipIf; split <;> rfl
@[simp] theorem State.skipIf_faulted (s : State) (c : Bool) : (s.skipIf c).faulted = s.faulted := by
  unfold State.skipIf; split <;> rfl
@[simp] theorem State.skipIf_faultCode (s : State) (c : Bool) : (s.skipIf c).faultCode = s.faultCode := by
  unfold State.skipIf; split <;> rfl
@[simp] theorem State.skipIf_faultPc (s : State) (c : Bool) : (s.skipIf c).faultPc = s.faultPc := by
  unfold State.skipIf; split <;> rfl
@[simp] theorem State.skipIf_faultInfo (s : State) (c : Bool) : (s.skipIf c).faultInfo = s.faultInfo := by
  unfold State.skipIf; split <;> rfl
@[simp] theorem State.skipIf_draws (s : State) (c : Bool) : (s.skipIf c).draws = s.draws := by
  unfold State.skipIf; split <;> rfl
@[simp] theorem State.getV_skipIf (s : State) (c : Bool) (x : RegIdx) : (s.skipIf c).getV x = s.getV x := by
  unfold State.skipIf; split <;> rfl

/-! `tick` -/

@[simp] theorem tick_v (s : State)  : (tick s).v = s.v := rfl
@[simp] theorem tick_i (s : State)  : (tick s).i = s.i := rfl
@[simp] theorem tick_pc (s : State)  : (tick s).pc = s.pc := rfl
@[simp] theorem tick_sp (s : State)  : (tick s).sp = s.sp := rfl
@[simp] theorem tick_stack (s : State)  : (tick s).stack = s.stack := rfl
@[simp] theorem tick_dt (s : State)  : (tick s).dt = countDown s.dt := rfl
@[simp] theorem tick_st (s : State)  : (tick s).st = countDown s.st := rfl
@[simp] theorem tick_fb (s : State)  : (tick s).fb = s.fb := rfl
@[simp] theorem tick_redraw (s : State)  : (tick s).redraw = s.redraw := rfl
@[simp] theorem tick_key (s : State)  : (tick s).key = s.key := rfl
@[simp] theorem tick_mem (s : State)  : (tick s).mem = s.mem := rfl
@[simp] theorem tick_faulted (s : State)  : (tick s).faulted = s.faulted := rfl
@[simp] theorem tick_faultCode (s : State)  : (tick s).faultCode = s.faultCode := rfl
@[simp] theorem tick_faultPc (s : State)  : (tick s).faultPc = s.faultPc := rfl
@[simp] theorem tick_faultInfo (s : State)  : (tick s).faultInfo = s.faultInfo := rfl
@[simp] theorem tick_draws (s : State)  : (tick s).draws = s.draws := rfl

/-! `setKeys` -/

@[simp] theorem setKeys_v (s : State) (keys : Vector Bool 16) : (setKeys keys s).v = s.v := rfl
@[simp] theorem setKeys_i (s : State) (keys : Vector Bool 16) : (setKeys keys s).i = s.i := rfl
@[simp] theorem setKeys_pc (s : State) (keys : Vector Bool 16) : (setKeys keys s).pc = s.pc := rfl
@[simp] theorem setKeys_sp (s : State) (keys : Vector Bool 16) : (setKeys keys s).sp = s.sp := rfl
@[simp] theorem setKeys_stack (s : State) (keys : Vector Bool 16) : (setKeys keys s).stack = s.stack := rfl
@[simp] theorem setKeys_dt (s : State) (keys : Vector Bool 16) : (setKeys keys s).dt = s.dt := rfl
@[simp] theorem setKeys_st (s : State) (keys : Vector Bool 16) : (setKeys keys s).st = s.st := rfl
@[simp] theorem setKeys_fb (s : State) (keys : Vector Bool 16) : (setKeys keys s).fb = s.fb := rfl
@[simp] theorem setKeys_redraw (s : State) (keys : Vector Bool 16) : (setKeys keys s).redraw = s.redraw := rfl
@[simp] theorem setKeys_key (s : State) (keys : Vector Bool 16) : (setKeys keys s).key = keys := rfl
@[simp] theorem setKeys_mem (s : State) (keys : Vector Bool 16) : (setKeys keys s).mem = s.mem := rfl
@[simp] theorem setKeys_faulted (s : State) (keys : Vector Bool 16) : (setKeys keys s).faulted = s.faulted := rfl
@[simp] theorem setKeys_faultCode (s : State) (keys : Vector Bool 16) : (setKeys keys s).faultCode = s.faultCode := rfl
@[simp] theorem setKeys_faultPc (s : State) (keys : Vector Bool 16) : (setKeys keys s).faultPc = s.faultPc := rfl
@[simp] theorem setKeys_faultInfo (s : State) (keys : Vector Bool 16) : (setKeys keys s).faultInfo = s.faultInfo := rfl
@[simp] theorem setKeys_draws (s : State) (keys : Vector Bool 16) : (setKeys keys s).draws = s.draws := rfl

/-! The register file -/

theorem State.getV_setV (s : State) (r x : RegIdx) (b : Byte) :
    (s.setV r b).getV x = if x = r then b else s.getV x := by
  have hrx : r.toNat = x.toNat ↔ x = r := by rw [eq_comm (a := x), BitVec.toNat_inj]
  simp only [State.getV, State.setV, Vector.getElem_set, hrx]

@[simp] theorem State.getV_setV_self (s : State) (r : RegIdx) (b : Byte) : (s.setV r b).getV r = b := by
  simp [State.getV_setV]

/-- After a result and a flag are written, VF is the flag, the destination the result, the rest unchanged
(41_arithmetic_logic.md R87). -/
theorem State.getV_setVThenFlag (s : State) (r x : RegIdx) (b flag : Byte) :
    (s.setVThenFlag r b flag).getV x = if x = vf then flag else if x = r then b else s.getV x := by
  simp only [State.setVThenFlag, State.getV_setV]

theorem State.getV_setRegs (s : State) (regs : Vector Byte 16) (x : RegIdx) :
    (s.setRegs regs).getV x = regs[x.toNat]'x.isLt := rfl

end Sys2Proof.Machine
end

