-- ==== Sys2Proof/Laws/Memory.lean ====
section
/-! SUPPORT. The laws of memory: reading after writing, the canonical form kept by every operation, equal contents equal
lists, and the bounds check. -/

namespace Sys2Proof.Machine

theorem initialByte_of_le {a : Nat} (h : 80 ≤ a) : initialByte a = 0x00#8 := by
  unfold initialByte
  rw [List.getD_eq_getElem?_getD, List.getElem?_eq_none (by simpa [fontData] using h)]
  rfl

/-! ### The bounds check (20_memory.md R49) -/

theorem firstOutOfRange_eq_none {base n : Nat} : firstOutOfRange base n = none ↔ (n = 0 ∨ base + n ≤ 0x1000) := by
  unfold firstOutOfRange
  split <;> simp <;> omega

theorem firstOutOfRange_eq_some {base n a : Nat} :
    firstOutOfRange base n = some a ↔ 0 < n ∧ 0x1000 < base + n ∧ a = max base 0x1000 := by
  unfold firstOutOfRange
  split
  · rw [Option.some_inj]
    constructor <;> intro h <;> omega
  · simp only [reduceCtorEq, false_iff]
    omega

/-! ### The canonical form -/

theorem Memory.wfFrom_mono {lo lo' : Nat} (h : lo' ≤ lo) : ∀ {m : Memory}, m.wfFrom lo = true → m.wfFrom lo' = true
  | [], _ => rfl
  | (a, b) :: rest, hm => by
    simp only [Memory.wfFrom, Bool.and_eq_true, decide_eq_true_eq] at hm ⊢
    exact ⟨⟨⟨by omega, hm.1.1.2⟩, hm.1.2⟩, hm.2⟩

theorem Memory.wfFrom_entry {lo a : Nat} {b : Byte} (hlo : lo ≤ a) (ha : a < Config.memSize) :
    (Memory.entry a b).wfFrom lo = true := by
  unfold Memory.entry
  split
  · rfl
  · simp_all [Memory.wfFrom]

theorem Memory.wfFrom_entry_append {lo a : Nat} {b : Byte} {m : Memory} (hlo : lo ≤ a) (ha : a < Config.memSize)
    (hm : m.wfFrom (a + 1) = true) : (Memory.entry a b ++ m).wfFrom lo = true := by
  unfold Memory.entry
  split
  · exact Memory.wfFrom_mono (by omega) hm
  · simp_all [Memory.wfFrom]

theorem Memory.wfFrom_write {a : Nat} {b : Byte} (ha : a < Config.memSize) :
    ∀ {lo : Nat} {m : Memory}, lo ≤ a → m.wfFrom lo = true → (m.write a b).wfFrom lo = true
  | lo, [], hlo, _ => Memory.wfFrom_entry hlo ha
  | lo, (k, c) :: rest, hlo, hm => by
    have hk := hm
    simp only [Memory.wfFrom, Bool.and_eq_true, decide_eq_true_eq] at hk
    unfold Memory.write
    split
    · refine Memory.wfFrom_entry_append hlo ha ?_
      simp only [Memory.wfFrom, Bool.and_eq_true, decide_eq_true_eq]
      exact ⟨⟨⟨by omega, hk.1.1.2⟩, hk.1.2⟩, hk.2⟩
    · split
      · subst a
        exact Memory.wfFrom_entry_append hlo ha hk.2
      · simp only [Memory.wfFrom, Bool.and_eq_true, decide_eq_true_eq]
        exact ⟨hk.1, Memory.wfFrom_write ha (by omega) hk.2⟩

/-- A write inside the 4096 bytes keeps the canonical form. -/
theorem Memory.wf_write {m : Memory} {a : Nat} {b : Byte} (hm : m.wf = true) (ha : a < Config.memSize) :
    (m.write a b).wf = true :=
  Memory.wfFrom_write ha (Nat.zero_le a) hm

/-- A block write inside the 4096 bytes keeps the canonical form. -/
theorem Memory.wf_writeBytes : ∀ {bytes : List Byte} {m : Memory} {a : Nat}, m.wf = true →
    a + bytes.length ≤ Config.memSize → (m.writeBytes a bytes).wf = true
  | [], _, _, hm, _ => hm
  | _ :: bs, _, a, hm, h => by
    rw [List.length_cons] at h
    exact Memory.wf_writeBytes (bytes := bs) (Memory.wf_write hm (by omega)) (by omega)

theorem Memory.wf_reset : State.reset.mem.wf = true := rfl

/-! ### Reading after writing -/

theorem Memory.read_of_wfFrom {a : Nat} : ∀ {lo : Nat} {m : Memory}, a < lo → m.wfFrom lo = true →
    m.read a = initialByte a
  | _, [], _, _ => rfl
  | lo, (k, c) :: rest, h, hm => by
    simp only [Memory.wfFrom, Bool.and_eq_true, decide_eq_true_eq] at hm
    rw [Memory.read, if_neg (by omega)]
    exact Memory.read_of_wfFrom (lo := k + 1) (by omega) hm.2

theorem Memory.read_entry_append {a a' : Nat} {b : Byte} {m : Memory} (h : a' = a → m.read a' = initialByte a') :
    (Memory.entry a b ++ m).read a' = if a' = a then b else m.read a' := by
  unfold Memory.entry
  split
  · split
    · subst a'; simp_all
    · rfl
  · simp only [List.cons_append, List.nil_append, Memory.read, eq_comm (a := a)]

/-- A read returns the byte last written (20_memory.md R51, R54). -/
theorem Memory.read_write_from {a a' : Nat} {b : Byte} : ∀ {lo : Nat} {m : Memory}, m.wfFrom lo = true →
    (m.write a b).read a' = if a' = a then b else m.read a'
  | _, [], _ => by
    have := Memory.read_entry_append (a := a) (a' := a') (b := b) (m := []) (fun _ => rfl)
    simpa [Memory.write] using this
  | lo, (k, c) :: rest, hm => by
    have hk := hm
    simp only [Memory.wfFrom, Bool.and_eq_true, decide_eq_true_eq] at hk
    unfold Memory.write
    split
    · refine Memory.read_entry_append fun h => ?_
      rw [Memory.read, if_neg (by omega)]
      exact Memory.read_of_wfFrom (lo := k + 1) (by omega) hk.2
    · split
      · subst a
        rw [Memory.read_entry_append fun h => Memory.read_of_wfFrom (lo := k + 1) (by omega) hk.2, Memory.read]
        by_cases h : a' = k
        · simp [h]
        · simp [h, Ne.symm h]
      · simp only [Memory.read]
        split
        · rw [if_neg (by omega)]
        · exact Memory.read_write_from hk.2

theorem Memory.read_write {m : Memory} (hm : m.wf = true) (a a' : Nat) (b : Byte) :
    (m.write a b).read a' = if a' = a then b else m.read a' :=
  Memory.read_write_from hm

/-- A write leaves every other byte alone, whatever the list. -/
theorem Memory.read_write_other {a a' : Nat} (b : Byte) (h : a' ≠ a) : ∀ m : Memory, (m.write a b).read a' = m.read a'
  | [] => by
    unfold Memory.write Memory.entry
    split
    · rfl
    · simp [Memory.read, Ne.symm h]
  | (k, c) :: rest => by
    unfold Memory.write Memory.entry
    split
    · split
      · rfl
      · rw [List.singleton_append, Memory.read, if_neg (Ne.symm h)]
    · split
      · subst a
        rw [Memory.read, if_neg (Ne.symm h)]
        split
        · rfl
        · rw [List.singleton_append, Memory.read, if_neg (Ne.symm h)]
      · rw [Memory.read, Memory.read, Memory.read_write_other b h rest]

/-- A block write leaves every byte outside the block alone, whatever the list. -/
theorem Memory.read_writeBytes_outside {a' : Nat} : ∀ {bytes : List Byte} {m : Memory} {a : Nat},
    (a' < a ∨ a + bytes.length ≤ a') → (m.writeBytes a bytes).read a' = m.read a'
  | [], _, _, _ => rfl
  | b :: bs, m, a, h => by
    rw [List.length_cons] at h
    rw [Memory.writeBytes, Memory.read_writeBytes_outside (by omega), Memory.read_write_other b (by omega)]

/-- A block write stores its bytes in order. -/
theorem Memory.read_writeBytes_inside : ∀ {bytes : List Byte} {m : Memory} {a k : Nat} (_ : m.wf = true)
    (_ : a + bytes.length ≤ Config.memSize) (h : k < bytes.length), (m.writeBytes a bytes).read (a + k) = bytes[k]
  | b :: bs, m, a, 0, hm, hs, _ => by
    rw [List.length_cons] at hs
    rw [Memory.writeBytes, Memory.read_writeBytes_outside (by omega), Memory.read_write hm, if_pos (by omega)]
    rfl
  | b :: bs, m, a, k + 1, hm, hs, h => by
    rw [List.length_cons] at hs h
    have := Memory.read_writeBytes_inside (bytes := bs) (m := m.write a b) (a := a + 1) (k := k)
      (Memory.wf_write hm (by omega)) (by omega) (by omega)
    rw [Memory.writeBytes, show a + (k + 1) = a + 1 + k by omega, this]
    rfl

/-! ### Equal contents, equal lists -/

theorem Memory.eq_of_read_from : ∀ {lo : Nat} {m m' : Memory}, m.wfFrom lo = true → m'.wfFrom lo = true →
    (∀ a, m.read a = m'.read a) → m = m'
  | _, [], [], _, _, _ => rfl
  | lo, [], (k, c) :: rest, _, hm', h => by
    simp only [Memory.wfFrom, Bool.and_eq_true, decide_eq_true_eq] at hm'
    exact absurd (by simpa [Memory.read] using (h k).symm) hm'.1.2
  | lo, (k, c) :: rest, [], hm, _, h => by
    simp only [Memory.wfFrom, Bool.and_eq_true, decide_eq_true_eq] at hm
    exact absurd (by simpa [Memory.read] using h k) hm.1.2
  | lo, (k, c) :: rest, (k', c') :: rest', hm, hm', h => by
    simp only [Memory.wfFrom, Bool.and_eq_true, decide_eq_true_eq] at hm hm'
    have hk : k = k' := by
      rcases Nat.lt_trichotomy k k' with hlt | heq | hlt
      · have := h k
        rw [Memory.read, if_pos rfl, Memory.read, if_neg (by omega),
          Memory.read_of_wfFrom (lo := k' + 1) (by omega) hm'.2] at this
        exact absurd this hm.1.2
      · exact heq
      · have := h k'
        rw [Memory.read, if_neg (by omega), Memory.read, if_pos rfl,
          Memory.read_of_wfFrom (lo := k + 1) (by omega) hm.2] at this
        exact absurd this.symm hm'.1.2
    subst hk
    have hc : c = c' := by simpa [Memory.read] using h k
    subst hc
    have hrest : rest = rest' := by
      refine Memory.eq_of_read_from hm.2 hm'.2 fun a => ?_
      rcases Nat.lt_or_ge k a with hlt | hge
      · simpa [Memory.read, show ¬ k = a by omega] using h a
      · rw [Memory.read_of_wfFrom (lo := k + 1) (by omega) hm.2, Memory.read_of_wfFrom (lo := k + 1) (by omega) hm'.2]
    rw [hrest]

/-- Two memories in canonical form that read the same everywhere are the same list. -/
theorem Memory.eq_of_read {m m' : Memory} (hm : m.wf = true) (hm' : m'.wf = true) (h : ∀ a, m.read a = m'.read a) :
    m = m' :=
  Memory.eq_of_read_from hm hm' h

end Sys2Proof.Machine
end

