-- ==== Sys2Proof/Laws/Frame.lean ====
section
/-! SUPPORT. What each named update leaves alone, in the terms of the frame statements, and what fault entry leaves. -/

namespace Sys2Proof.Machine

theorem Part.same_refl (p : Part) (s : State) : p.Same s s := by cases p <;> rfl

theorem Part.same_trans {p : Part} {s t u : State} (h : p.Same s t) (h' : p.Same t u) : p.Same s u := by
  cases p <;> exact Eq.trans h' h

theorem KeepsOutside.refl (written : Part → Prop) (s : State) : KeepsOutside written s s := fun p _ => p.same_refl s

theorem KeepsOutside.trans {written : Part → Prop} {s t u : State} (h : KeepsOutside written s t)
    (h' : KeepsOutside written t u) : KeepsOutside written s u :=
  fun p hp => Part.same_trans (h p hp) (h' p hp)

theorem KeepsOutside.mono {written written' : Part → Prop} {s t : State} (h : KeepsOutside written s t)
    (hw : ∀ p, written p → written' p) : KeepsOutside written' s t :=
  fun p hp => h p fun hp' => hp (hw p hp')

theorem KeepsAllBut.trans {l l' : List Part} {s t u : State} (h : KeepsAllBut l s t) (h' : KeepsAllBut l' t u) :
    KeepsAllBut (l ++ l') s u :=
  (KeepsOutside.mono h fun _ hp => List.mem_append_left _ hp).trans
    (KeepsOutside.mono h' fun _ hp => List.mem_append_right _ hp)

theorem keeps_setV (s : State) (r : RegIdx) (b : Byte) : KeepsAllBut [.v r] s (s.setV r b) := by
  intro p hp
  cases p with
  | v x => exact (State.getV_setV s r x b).trans (if_neg fun h => hp (by simp [h]))
  | _ => rfl

theorem keeps_setVThenFlag (s : State) (r : RegIdx) (b flag : Byte) :
    KeepsAllBut [.v r, .v vf] s (s.setVThenFlag r b flag) :=
  (keeps_setV s r b).trans (keeps_setV (s.setV r b) vf flag)

theorem keeps_setI (s : State) (a : Word) : KeepsAllBut [.i] s (s.setI a) := by
  intro p hp
  cases p with
  | i => exact absurd (List.mem_singleton.2 rfl) hp
  | _ => rfl

theorem keeps_setPc (s : State) (a : Word) : KeepsAllBut [.pc] s (s.setPc a) := by
  intro p hp
  cases p with
  | pc => exact absurd (List.mem_singleton.2 rfl) hp
  | _ => rfl

theorem keeps_skipIf (s : State) (c : Bool) : KeepsAllBut [.pc] s (s.skipIf c) := by
  unfold State.skipIf
  split
  · exact keeps_setPc s _
  · exact KeepsOutside.refl _ s

theorem keeps_setDt (s : State) (b : Byte) : KeepsAllBut [.dt] s (s.setDt b) := by
  intro p hp
  cases p with
  | dt => exact absurd (List.mem_singleton.2 rfl) hp
  | _ => rfl

theorem keeps_setSt (s : State) (b : Byte) : KeepsAllBut [.st] s (s.setSt b) := by
  intro p hp
  cases p with
  | st => exact absurd (List.mem_singleton.2 rfl) hp
  | _ => rfl

theorem keeps_countDraw (s : State) : KeepsAllBut [.draws] s s.countDraw := by
  intro p hp
  cases p with
  | draws => exact absurd (List.mem_singleton.2 rfl) hp
  | _ => rfl

theorem keeps_setScreen (s : State) (fb : Screen) :
    KeepsOutside (fun p => p = .redraw ∨ ∃ r c, p = .cell r c) s (s.setScreen fb) := by
  intro p hp
  cases p with
  | redraw => exact absurd (Or.inl rfl) hp
  | cell r c => exact absurd (Or.inr ⟨r, c, rfl⟩) hp
  | _ => rfl

/-- A block write changes the bytes of the block and nothing else. -/
theorem keeps_setMem_writeBytes (s : State) (a : Nat) (bytes : List Byte) :
    KeepsOutside (fun p => ∃ k, k < bytes.length ∧ p = .mem (a + k)) s (s.setMem (s.mem.writeBytes a bytes)) := by
  intro p hp
  cases p with
  | mem a' =>
    refine Memory.read_writeBytes_outside ?_
    by_contra h
    exact hp ⟨a' - a, by omega, by rw [show a + (a' - a) = a' by omega]⟩
  | _ => rfl

theorem keeps_pushPc (s : State) (h : s.sp.val < 16) : KeepsAllBut [.stack ⟨s.sp.val, h⟩, .sp] s (s.pushPc h) := by
  intro p hp
  cases p with
  | sp => exact absurd (by simp) hp
  | stack j =>
    have hj : s.sp.val ≠ j.val := fun e => hp (by simp [e])
    exact Vector.getElem_set_ne h j.isLt hj
  | _ => rfl

theorem keeps_popPc (s : State) (h : 0 < s.sp.val) : KeepsAllBut [.sp, .pc] s (s.popPc h) := by
  intro p hp
  cases p with
  | sp => exact absurd (by simp) hp
  | pc => exact absurd (by simp) hp
  | _ => rfl

/-- Fault entry is precise (60_exceptions.md R123): everything but the fault status and pc is as before. -/
theorem faultEntered_enterFault (s : State) (cause : FaultCause) (a info : Word) :
    FaultEntered cause.code a info s (s.enterFault cause a info) := by
  refine ⟨rfl, rfl, rfl, rfl, rfl, fun p hp => ?_⟩
  cases p with
  | pc => exact absurd (by simp) hp
  | faulted => exact absurd (by simp) hp
  | faultCode => exact absurd (by simp) hp
  | faultPc => exact absurd (by simp) hp
  | faultInfo => exact absurd (by simp) hp
  | _ => rfl

end Sys2Proof.Machine
end

