-- ==== Sys2Proof/Laws/Ops.lean ====
section
/-! SUPPORT. One lemma for each shared operation that says what it answers: checked accesses, raising, key reads, the
wait-for-key scan, the block transfers, fetch and STEP. -/

namespace Sys2Proof.Machine

theorem raise_eq (cause : FaultCause) (info : Word) (s : State) :
    raise cause info s = .next (s.enterFault cause (s.pc - 2#16) info) := rfl

/-- An access all of whose bytes exist goes through (20_memory.md R49). -/
theorem withAccess_inside {n : Nat} {s t : State} (h : n = 0 ∨ s.i.toNat + n ≤ 0x1000) : withAccess n s t = .next t := by
  rw [withAccess, firstOutOfRange_eq_none.2 h]

/-- An access with a byte above 0xFFF takes MemoryAccessFault with the lowest such address (20_memory.md R49). -/
theorem withAccess_outside {n : Nat} {s t : State} (hn : 0 < n) (h : 0x1000 < s.i.toNat + n) :
    withAccess n s t =
      .next (s.enterFault .memoryAccess (s.pc - 2#16) (BitVec.ofNat 16 (max s.i.toNat 0x1000))) := by
  rw [withAccess, firstOutOfRange_eq_some.2 ⟨hn, h, rfl⟩]
  rfl

/-- What a checked access can answer. -/
theorem withAccess_cases (n : Nat) (s t : State) :
    ((n = 0 ∨ s.i.toNat + n ≤ 0x1000) ∧ withAccess n s t = .next t) ∨
    (0 < n ∧ 0x1000 < s.i.toNat + n ∧ withAccess n s t =
      .next (s.enterFault .memoryAccess (s.pc - 2#16) (BitVec.ofNat 16 (max s.i.toNat 0x1000)))) := by
  by_cases h : n = 0 ∨ s.i.toNat + n ≤ 0x1000
  · exact Or.inl ⟨h, withAccess_inside h⟩
  · exact Or.inr ⟨by omega, by omega, withAccess_outside (by omega) (by omega)⟩

theorem keyPressed_of_lt {s : State} {k : Byte} (h : k.toNat < 16) : s.keyPressed k = some (s.key[k.toNat]'h) :=
  dif_pos h

theorem keyPressed_of_le {s : State} {k : Byte} (h : 16 ≤ k.toNat) : s.keyPressed k = none := dif_neg (by omega)

theorem key_getD {keys : Vector Bool 16} {k : Nat} (h : k < 16) : keys.getD k false = keys[k] := by
  rw [Vector.getD, Array.getD, dif_pos (by simpa using h)]
  rfl

/-- The scan finds nothing exactly when no key of 0x0 to 0xE is pressed (44_timers_input.md R114). -/
theorem firstKey_eq_none {s : State} : s.firstKey = none ↔ ∀ k : Fin 15, s.key[k.val] = false := by
  simp only [State.firstKey, scannedKeys, List.find?_eq_none, List.mem_range]
  constructor
  · intro h k
    have := h k.val k.isLt
    rw [key_getD (by omega)] at this
    simpa using this
  · intro h k hk
    rw [key_getD (by omega)]
    simpa using h ⟨k, hk⟩

/-- The scan finds the lowest pressed key of 0x0 to 0xE (44_timers_input.md R114). -/
theorem firstKey_eq_some {s : State} {k : Fin 15} (h : s.key[k.val] = true)
    (hl : ∀ j : Fin 15, j < k → s.key[j.val] = false) : s.firstKey = some k.val := by
  have hk := k.isLt
  rw [State.firstKey, scannedKeys, List.find?_range_eq_some]
  refine ⟨?_, List.mem_range.2 hk, fun j hj => ?_⟩
  · rw [key_getD (by omega)]
    exact h
  · rw [key_getD (by omega)]
    simpa using hl ⟨j, by omega⟩ hj

/-- A key the scan finds is one of 0x0 to 0xE. -/
theorem firstKey_lt {s : State} {k : Nat} (h : s.firstKey = some k) : k < 15 := by
  simpa [scannedKeys] using List.mem_of_find?_eq_some h

/-! ### Block transfers (42_index_memory.md R105 to R107) -/

@[simp] theorem length_bcdDigits (b : Byte) : (bcdDigits b).length = 3 := rfl

@[simp] theorem length_blockValues (s : State) (x : RegIdx) : (s.blockValues x).length = x.toNat + 1 := by
  simp [State.blockValues, blockLength]

/-- A block store leaves V[r] at I + r, for every register of the block. -/
theorem read_blockStored {s : State} {x r : RegIdx} (hm : s.mem.wf = true) (h : s.i.toNat + x.toNat ≤ 0xFFF)
    (hr : r.toNat ≤ x.toNat) :
    (s.mem.writeBytes s.i.toNat (s.blockValues x)).read (s.i.toNat + r.toNat) = s.getV r := by
  rw [Memory.read_writeBytes_inside hm (by simp only [length_blockValues, Config.memSize]; omega)
    (by rw [length_blockValues]; omega)]
  simp [State.blockValues]

/-- A block load takes the block's registers from memory and keeps the others. -/
theorem getV_blockLoaded (s : State) (x r : RegIdx) :
    (s.setRegs (s.blockLoaded x)).getV r =
      if r.toNat ≤ x.toNat then s.mem.read (s.i.toNat + r.toNat) else s.getV r := by
  simp [State.blockLoaded, State.getV]

theorem keeps_blockLoaded (s : State) (x : RegIdx) :
    KeepsOutside (fun p => ∃ r : RegIdx, r.toNat ≤ x.toNat ∧ p = .v r) s (s.setRegs (s.blockLoaded x)) := by
  intro p hp
  cases p with
  | v r =>
    simp only [Part.Same]
    rw [getV_blockLoaded, if_neg fun hr => hp ⟨r, hr, rfl⟩]
  | _ => simp only [Part.Same, State.setRegs_i, State.setRegs_pc, State.setRegs_sp, State.setRegs_stack, State.setRegs_dt,
      State.setRegs_st, State.setRegs_fb, State.setRegs_redraw, State.setRegs_key, State.setRegs_mem,
      State.setRegs_faulted, State.setRegs_faultCode, State.setRegs_faultPc, State.setRegs_faultInfo,
      State.setRegs_draws]

/-- I after a block transfer (42_index_memory.md R107). -/
theorem toNat_indexPastBlock (s : State) (x : RegIdx) :
    (s.indexPastBlock x).toNat = (s.i.toNat + x.toNat + 1) % 65536 := by
  simp [State.indexPastBlock, blockLength]
  omega

/-! ### Fetch and STEP (30_encoding.md R65, 10_state.md R35) -/

theorem fetch_inside {s : State} (h : s.pc.toNat ≤ 0xFFE) :
    fetch s = .ok (s.mem.readWord s.pc.toNat, s.setPc (s.pc + 2#16)) := by
  rw [fetch, firstOutOfRange_eq_none.2 (Or.inr (by omega))]

theorem fetch_outside {s : State} (h : 0xFFE < s.pc.toNat) :
    fetch s = .error (BitVec.ofNat 16 (max s.pc.toNat 0x1000)) := by
  rw [fetch, firstOutOfRange_eq_some.2 ⟨by decide, by omega, rfl⟩]

theorem step_faulted {s : State} (h : s.faulted = true) : step s = .next s := if_pos h

theorem step_inside {s : State} (hf : s.faulted = false) (h : s.pc.toNat ≤ 0xFFE) :
    step s = exec (decode (s.mem.readWord s.pc.toNat)) (s.setPc (s.pc + 2#16)) := by
  rw [step, if_neg (by simp [hf]), fetch_inside h]

theorem step_outside {s : State} (hf : s.faulted = false) (h : 0xFFE < s.pc.toNat) :
    step s = .next (s.enterFault .memoryAccess s.pc (BitVec.ofNat 16 (max s.pc.toNat 0x1000))) := by
  rw [step, if_neg (by simp [hf]), fetch_outside h]

/-- What STEP can answer: nothing in FAULTED, a fetch fault, or the decoded instruction's effect. -/
theorem step_cases (s : State) :
    (s.faulted = true ∧ step s = .next s) ∨
    (s.faulted = false ∧ 0xFFE < s.pc.toNat ∧
      step s = .next (s.enterFault .memoryAccess s.pc (BitVec.ofNat 16 (max s.pc.toNat 0x1000)))) ∨
    (s.faulted = false ∧ s.pc.toNat ≤ 0xFFE ∧
      step s = exec (decode (s.mem.readWord s.pc.toNat)) (s.setPc (s.pc + 2#16))) := by
  by_cases hf : s.faulted = true
  · exact Or.inl ⟨hf, step_faulted hf⟩
  · have hf' : s.faulted = false := by simpa using hf
    by_cases h : s.pc.toNat ≤ 0xFFE
    · exact Or.inr (Or.inr ⟨hf', h, step_inside hf' h⟩)
    · exact Or.inr (Or.inl ⟨hf', by omega, step_outside hf' (by omega)⟩)

/-- A word whose two bytes lie at pc is the word fetch reads. -/
theorem readWord_of_fetchesWord {s : State} {w : Word} (h : FetchesWord s w) : s.mem.readWord s.pc.toNat = w := by
  obtain ⟨-, -, hb⟩ := h
  simp only [bytesOfWord, List.cons.injEq, and_true] at hb
  rw [Memory.readWord, hb.1, hb.2, Laws.wordOfBytes_bytes]

/-- The word fetch reads is at pc. -/
theorem fetchesWord_readWord {s : State} (hf : s.faulted = false) (h : s.pc.toNat ≤ 0xFFE) :
    FetchesWord s (s.mem.readWord s.pc.toNat) := by
  refine ⟨hf, h, ?_⟩
  have h1 : ∀ a b : Byte, (wordOfBytes a b).extractLsb' 8 8 = a := fun a b =>
    (Laws.extract_upper a b 8 8 (by decide)).trans (Laws.extract_all a)
  have h2 : ∀ a b : Byte, (wordOfBytes a b).extractLsb' 0 8 = b := fun a b =>
    (Laws.extract_lower a b 0 8 (by decide)).trans (Laws.extract_all b)
  rw [bytesOfWord, Memory.readWord, h1, h2]

end Sys2Proof.Machine
end

