-- ==== Sys2Proof/Laws/Display.lean ====
section
/-! SUPPORT. The drawing loop in closed form: each cell is toggled exactly when the sprite has a bit for it, and the
collision is the meeting of those cells with the lit ones (43_display.md R110). -/

namespace Sys2Proof.Machine

theorem Screen.get_eq (fb : Screen) (r : Fin 32) (c : Fin 64) : fb.get r.val c.val = fb[r][c] := by
  rw [Screen.get, dif_pos ⟨r.isLt, c.isLt⟩]
  rfl

theorem Screen.get_of_lt {fb : Screen} {r c : Nat} (hr : r < 32) (hc : c < 64) : fb.get r c = (fb[r]'hr)[c]'hc :=
  dif_pos ⟨hr, hc⟩

theorem Screen.get_outside {fb : Screen} {r c : Nat} (h : ¬(r < 32 ∧ c < 64)) : fb.get r c = false := dif_neg h

theorem Screen.get_clear (r c : Nat) : Screen.clear.get r c = false := by
  unfold Screen.get Screen.clear
  split
  · simp
  · rfl

/-- Toggling a cell inside the frame changes that cell and no other. -/
theorem Screen.get_toggle {fb : Screen} {r c : Nat} (hr : r < 32) (hc : c < 64) (r' c' : Nat) :
    (fb.toggle r c).get r' c' = (fb.get r' c' ^^ decide (r' = r ∧ c' = c)) := by
  rw [Screen.toggle, dif_pos ⟨hr, hc⟩]
  by_cases h' : r' < 32 ∧ c' < 64
  · rw [Screen.get_of_lt h'.1 h'.2, Screen.get_of_lt h'.1 h'.2, Screen.get_of_lt hr hc]
    by_cases h1 : r = r'
    · subst h1
      by_cases h2 : c = c'
      · subst h2
        simp
      · simp [Vector.getElem_set_ne _ _ h2, Ne.symm h2]
    · simp [Vector.getElem_set_ne _ _ h1, Ne.symm h1]
  · rw [Screen.get_outside h', Screen.get_outside h']
    simp only [Bool.false_xor, Bool.false_eq, decide_eq_false_iff_not]
    omega

/-- Whether the byte, drawn in row `row` from column `col` on, has a bit for the cell. -/
def rowCovers (row col : Nat) (b : Byte) (m r c : Nat) : Bool :=
  decide (r = row ∧ r < 32 ∧ c < 64 ∧ col ≤ c ∧ c < col + m) && spriteBit b (c - col)

/-- The first `m` pixels of one sprite byte: cells toggled, and collisions met. -/
theorem drawPixels_spec (row col : Nat) (b : Byte) (acc : Screen × Bool) (m : Nat) :
    (∀ r c, (((List.range m).foldl (drawPixel row col b) acc).1).get r c =
      (acc.1.get r c ^^ rowCovers row col b m r c)) ∧
    (((List.range m).foldl (drawPixel row col b) acc).2 = true ↔
      acc.2 = true ∨ ∃ r c, acc.1.get r c = true ∧ rowCovers row col b m r c = true) := by
  induction m with
  | zero => simp [rowCovers, show ∀ c, ¬(col ≤ c ∧ c < col) by omega]
  | succ m ih =>
    rw [List.range_succ, List.foldl_append, List.foldl_cons, List.foldl_nil]
    generalize (List.range m).foldl (drawPixel row col b) acc = u at ih ⊢
    obtain ⟨ih1, ih2⟩ := ih
    have hstep : ∀ r c, rowCovers row col b (m + 1) r c = (rowCovers row col b m r c ^^
        (decide (r = row ∧ c = col + m) && (spriteBit b m && decide (row < 32) && decide (col + m < 64)))) := by
      intro r c
      unfold rowCovers
      by_cases h : r = row ∧ c = col + m
      · obtain ⟨rfl, rfl⟩ := h
        simp [Bool.and_comm, Bool.and_left_comm, Bool.and_assoc]
      · have : (c < col + (m + 1) ∧ r = row) ↔ (c < col + m ∧ r = row) := by omega
        simp only [h, decide_false, Bool.false_and, Bool.xor_false]
        congr 2
        simp only [eq_iff_iff]
        omega
    by_cases hc : spriteBit b m && decide (row < 32) && decide (col + m < 64)
    · have hb := hc
      simp only [Bool.and_eq_true, decide_eq_true_eq] at hc
      obtain ⟨⟨hbit, hrow⟩, hcol⟩ := hc
      rw [drawPixel, if_pos hb]
      refine ⟨fun r c => ?_, ?_⟩
      · rw [Screen.get_toggle hrow hcol, ih1, hstep, hb, Bool.and_true, Bool.xor_assoc]
      · have hnew : rowCovers row col b m row (col + m) = false := by simp [rowCovers]
        rw [Bool.or_eq_true, ih2, ih1, hnew, Bool.xor_false, or_assoc]
        refine or_congr_right ⟨?_, ?_⟩
        · rintro (⟨r, c, hg, hm⟩ | hg)
          · refine ⟨r, c, hg, ?_⟩
            rw [hstep, hm]
            have : ¬(r = row ∧ c = col + m) := by
              rintro ⟨rfl, rfl⟩
              rw [hnew] at hm
              exact Bool.noConfusion hm
            simp [this]
          · refine ⟨row, col + m, hg, ?_⟩
            rw [hstep, hnew, hb]
            simp
        · rintro ⟨r, c, hg, hm⟩
          rw [hstep, hb, Bool.and_true] at hm
          by_cases h : r = row ∧ c = col + m
          · obtain ⟨rfl, rfl⟩ := h
            exact Or.inr hg
          · simp only [h, decide_false, Bool.xor_false] at hm
            exact Or.inl ⟨r, c, hg, hm⟩
    · rw [drawPixel, if_neg hc]
      have hsame : ∀ r c, rowCovers row col b (m + 1) r c = rowCovers row col b m r c := by
        intro r c
        rw [hstep, Bool.eq_false_iff.2 hc, Bool.and_false, Bool.xor_false]
      simp only [hsame]
      exact ⟨ih1, ih2⟩

/-- Whether the bytes, drawn from row `row` and column `col` on, have a bit for the cell. -/
def bytesCover (col : Nat) : Nat → List Byte → Nat → Nat → Bool
  | _, [], _, _ => false
  | row, b :: bs, r, c => if r = row then rowCovers row col b 8 r c else bytesCover col (row + 1) bs r c

theorem bytesCover_of_lt {col r : Nat} (c : Nat) : ∀ {bytes : List Byte} {row : Nat}, r < row →
    bytesCover col row bytes r c = false
  | [], _, _ => rfl
  | b :: bs, row, h => by rw [bytesCover, if_neg (by omega), bytesCover_of_lt c (by omega)]

/-- The whole drawing loop: cells toggled, and collisions met. -/
theorem drawRows_spec (col : Nat) : ∀ (bytes : List Byte) (row : Nat) (acc : Screen × Bool),
    (∀ r c, (drawRows col row bytes acc).1.get r c = (acc.1.get r c ^^ bytesCover col row bytes r c)) ∧
    ((drawRows col row bytes acc).2 = true ↔
      acc.2 = true ∨ ∃ r c, acc.1.get r c = true ∧ bytesCover col row bytes r c = true)
  | [], row, acc => by simp [drawRows, bytesCover]
  | b :: bs, row, acc => by
    obtain ⟨h1, h2⟩ := drawPixels_spec row col b acc 8
    obtain ⟨i1, i2⟩ := drawRows_spec col bs (row + 1) (drawRow row col b acc)
    have hrow : ∀ r c, r ≠ row → rowCovers row col b 8 r c = false := fun r c h => by simp [rowCovers, h]
    have hsplit : ∀ r c, bytesCover col row (b :: bs) r c =
        (rowCovers row col b 8 r c ^^ bytesCover col (row + 1) bs r c) := by
      intro r c
      rw [bytesCover]
      split
      · rename_i h
        rw [bytesCover_of_lt c (by omega), Bool.xor_false]
      · rename_i h
        rw [hrow r c h, Bool.false_xor]
    rw [drawRows]
    refine ⟨fun r c => ?_, ?_⟩
    · rw [i1, drawRow, h1, hsplit, Bool.xor_assoc]
    · rw [i2, drawRow, h2, or_assoc]
      refine or_congr_right ⟨?_, ?_⟩
      · rintro (⟨r, c, hg, hm⟩ | ⟨r, c, hg, hm⟩)
        · have hr : r = row := by
            by_contra h
            rw [hrow r c h] at hm
            exact Bool.noConfusion hm
          exact ⟨r, c, hg, by rw [bytesCover, if_pos hr, hm]⟩
        · have hr : r ≠ row := by
            intro h
            rw [bytesCover_of_lt c (by omega)] at hm
            exact Bool.noConfusion hm
          rw [h1, hrow r c hr, Bool.xor_false] at hg
          exact ⟨r, c, hg, by rw [bytesCover, if_neg hr, hm]⟩
      · rintro ⟨r, c, hg, hm⟩
        rw [bytesCover] at hm
        split at hm
        · exact Or.inl ⟨r, c, hg, hm⟩
        · rename_i hr
          exact Or.inr ⟨r, c, by rw [h1, hrow r c hr, Bool.xor_false, hg], hm⟩

/-- The bit of a cell, read off the byte of its row. -/
theorem bytesCover_eq (col : Nat) {r c : Nat} (hr : r < 32) (hc : c < 64) : ∀ (bytes : List Byte) (row : Nat),
    bytesCover col row bytes r c =
      (decide (row ≤ r ∧ r < row + bytes.length ∧ col ≤ c ∧ c < col + 8) && spriteBit (bytes.getD (r - row) 0#8) (c - col))
  | [], row => by simp [bytesCover, show ¬(row ≤ r ∧ r < row ∧ col ≤ c ∧ c < col + 8) by omega]
  | b :: bs, row => by
    rw [bytesCover]
    split
    · rename_i h
      subst h
      simp [rowCovers, hr, hc]
    · rename_i h
      rw [bytesCover_eq col hr hc bs (row + 1)]
      by_cases hlt : r < row
      · simp [show ¬(row + 1 ≤ r) by omega, show ¬(row ≤ r) by omega]
      · rw [show r - row = (r - (row + 1)) + 1 by omega, List.getD_cons_succ, List.length_cons]
        congr 2
        simp only [eq_iff_iff]
        omega

/-- DRW's sprite on the frame buffer, cell by cell. -/
theorem drawn_cell (s : State) (x y : RegIdx) (n : Nibble) (r : Fin 32) (c : Fin 64) :
    (s.drawn x y n).1[r][c] = (s.fb[r][c] ^^ spriteCovers s x y n r c) := by
  have h := (drawRows_spec (spriteColumn (s.getV x)) (s.mem.readBytes s.i.toNat n.toNat) (spriteRow (s.getV y))
    (s.fb, false)).1 r.val c.val
  rw [bytesCover_eq _ r.isLt c.isLt] at h
  rw [← Screen.get_eq, ← Screen.get_eq]
  refine h.trans (congrArg _ ?_)
  simp only [spriteCovers, spriteBit, spriteRow, spriteColumn, Memory.readBytes, List.length_map, List.length_range]
  by_cases hin : (s.getV y).toNat % 32 ≤ r.val ∧ r.val < (s.getV y).toNat % 32 + n.toNat ∧
      (s.getV x).toNat % 64 ≤ c.val ∧ c.val < (s.getV x).toNat % 64 + 8
  · rw [decide_eq_true hin, Bool.true_and, Bool.true_and]
    rw [List.getD_eq_getElem?_getD, List.getElem?_map, List.getElem?_range (by omega)]
    rfl
  · simp only [hin, decide_false, Bool.false_and]

/-- DRW's collision: some lit cell has a sprite bit. -/
theorem drawn_collision (s : State) (x y : RegIdx) (n : Nibble) :
    (s.drawn x y n).2 = true ↔ ∃ (r : Fin 32) (c : Fin 64), s.fb[r][c] = true ∧ spriteCovers s x y n r c = true := by
  have hcov : ∀ (r : Fin 32) (c : Fin 64), bytesCover (spriteColumn (s.getV x)) (spriteRow (s.getV y))
      (s.mem.readBytes s.i.toNat n.toNat) r.val c.val = spriteCovers s x y n r c := by
    intro r c
    have h1 := (drawRows_spec (spriteColumn (s.getV x)) (s.mem.readBytes s.i.toNat n.toNat) (spriteRow (s.getV y))
      (s.fb, false)).1 r.val c.val
    have h2 := drawn_cell s x y n r c
    rw [← Screen.get_eq, ← Screen.get_eq] at h2
    exact (Bool.xor_right_inj).1 (h1.symm.trans h2)
  refine (drawRows_spec (spriteColumn (s.getV x)) (s.mem.readBytes s.i.toNat n.toNat) (spriteRow (s.getV y))
    (s.fb, false)).2.trans ?_
  simp only [Bool.false_eq_true, false_or]
  constructor
  · rintro ⟨r, c, hg, hm⟩
    have hin : r < 32 ∧ c < 64 := by
      by_contra h
      rw [Screen.get_outside h] at hg
      exact Bool.noConfusion hg
    refine ⟨⟨r, hin.1⟩, ⟨c, hin.2⟩, ?_, ?_⟩
    · rw [← Screen.get_eq]
      exact hg
    · rw [← hcov]
      exact hm
  · rintro ⟨r, c, hg, hm⟩
    exact ⟨r.val, c.val, by rw [Screen.get_eq]; exact hg, by rw [hcov]; exact hm⟩

end Sys2Proof.Machine
end

