-- ==== Sys2Proof/Laws/PerInstr.lean ====
section
/-! SUPPORT. Statements about all instructions, one lemma per constructor. `RoundTrip`: decoding the word of a
well-formed instruction gives the instruction back, every operand at every value (30_encoding.md R62 to R73). -/

set_option Elab.async false -- one proof at a time: in parallel they all wait for the equations of decode

namespace Sys2Proof.Laws

/-- Decoding the word of a well-formed instruction gives the instruction back. -/
def RoundTrip.Statement (i : Instr) : Prop := i.wf = true → decode (encode i) = i

theorem RoundTrip.cls (hi : Nibble) : Statement (.cls hi) := fun _ => by simp [encode, decode, decodeClass0]
theorem RoundTrip.ret (hi : Nibble) : Statement (.ret hi) := fun _ => by simp [encode, decode, decodeClass0]
theorem RoundTrip.jp (nnn : Addr) : Statement (.jp nnn) := fun _ => by simp [encode, decode]
theorem RoundTrip.call (nnn : Addr) : Statement (.call nnn) := fun _ => by simp [encode, decode]
theorem RoundTrip.seVxKk (x : RegIdx) (kk : Byte) : Statement (.seVxKk x kk) := fun _ => by simp [encode, decode]
theorem RoundTrip.sneVxKk (x : RegIdx) (kk : Byte) : Statement (.sneVxKk x kk) := fun _ => by simp [encode, decode]
theorem RoundTrip.seVxVy (x y : RegIdx) (lo : Nibble) : Statement (.seVxVy x y lo) := fun _ => by simp [encode, decode]
theorem RoundTrip.ldVxKk (x : RegIdx) (kk : Byte) : Statement (.ldVxKk x kk) := fun _ => by simp [encode, decode]
theorem RoundTrip.addVxKk (x : RegIdx) (kk : Byte) : Statement (.addVxKk x kk) := fun _ => by simp [encode, decode]
theorem RoundTrip.ldVxVy (x y : RegIdx) : Statement (.ldVxVy x y) := fun _ => by simp [encode, decode, decodeClass8]
theorem RoundTrip.orVxVy (x y : RegIdx) : Statement (.orVxVy x y) := fun _ => by simp [encode, decode, decodeClass8]
theorem RoundTrip.andVxVy (x y : RegIdx) : Statement (.andVxVy x y) := fun _ => by simp [encode, decode, decodeClass8]
theorem RoundTrip.xorVxVy (x y : RegIdx) : Statement (.xorVxVy x y) := fun _ => by simp [encode, decode, decodeClass8]
theorem RoundTrip.addVxVy (x y : RegIdx) : Statement (.addVxVy x y) := fun _ => by simp [encode, decode, decodeClass8]
theorem RoundTrip.subVxVy (x y : RegIdx) : Statement (.subVxVy x y) := fun _ => by simp [encode, decode, decodeClass8]
theorem RoundTrip.shrVxVy (x y : RegIdx) : Statement (.shrVxVy x y) := fun _ => by simp [encode, decode, decodeClass8]
theorem RoundTrip.subnVxVy (x y : RegIdx) : Statement (.subnVxVy x y) := fun _ => by simp [encode, decode, decodeClass8]
theorem RoundTrip.shlVxVy (x y : RegIdx) : Statement (.shlVxVy x y) := fun _ => by simp [encode, decode, decodeClass8]
theorem RoundTrip.sneVxVy (x y : RegIdx) (lo : Nibble) : Statement (.sneVxVy x y lo) := fun _ => by simp [encode, decode]
theorem RoundTrip.ldINnn (nnn : Addr) : Statement (.ldINnn nnn) := fun _ => by simp [encode, decode]
theorem RoundTrip.jpV0Nnn (nnn : Addr) : Statement (.jpV0Nnn nnn) := fun _ => by simp [encode, decode]
theorem RoundTrip.rndVxKk (x : RegIdx) (kk : Byte) : Statement (.rndVxKk x kk) := fun _ => by simp [encode, decode]
theorem RoundTrip.drw (x y : RegIdx) (n : Nibble) : Statement (.drw x y n) := fun _ => by simp [encode, decode]
theorem RoundTrip.skpVx (x : RegIdx) : Statement (.skpVx x) := fun _ => by simp [encode, decode, decodeClassE]
theorem RoundTrip.sknpVx (x : RegIdx) : Statement (.sknpVx x) := fun _ => by simp [encode, decode, decodeClassE]
theorem RoundTrip.ldVxDt (x : RegIdx) : Statement (.ldVxDt x) := fun _ => by simp [encode, decode, decodeClassF]
theorem RoundTrip.ldVxK (x : RegIdx) : Statement (.ldVxK x) := fun _ => by simp [encode, decode, decodeClassF]
theorem RoundTrip.ldDtVx (x : RegIdx) : Statement (.ldDtVx x) := fun _ => by simp [encode, decode, decodeClassF]
theorem RoundTrip.ldStVx (x : RegIdx) : Statement (.ldStVx x) := fun _ => by simp [encode, decode, decodeClassF]
theorem RoundTrip.addIVx (x : RegIdx) : Statement (.addIVx x) := fun _ => by simp [encode, decode, decodeClassF]
theorem RoundTrip.ldFVx (x : RegIdx) : Statement (.ldFVx x) := fun _ => by simp [encode, decode, decodeClassF]
theorem RoundTrip.ldBVx (x : RegIdx) : Statement (.ldBVx x) := fun _ => by simp [encode, decode, decodeClassF]
theorem RoundTrip.ldMemVx (x : RegIdx) : Statement (.ldMemVx x) := fun _ => by simp [encode, decode, decodeClassF]
theorem RoundTrip.ldVxMem (x : RegIdx) : Statement (.ldVxMem x) := fun _ => by simp [encode, decode, decodeClassF]
theorem RoundTrip.nop (w : Word) : Statement (.nop w) := by
  intro h
  simp only [Instr.wf, isNopWord, Bool.or_eq_true, Bool.and_eq_true, beq_iff_eq, bne_iff_ne, decide_eq_true_eq,
    Bool.not_eq_true', List.contains_eq_mem, decide_eq_false_iff_not, List.mem_cons, not_or, List.not_mem_nil] at h
  have hc : (fieldClass w).toNat = (w.extractLsb' 12 4).toNat := rfl
  have hk : (fieldKk w).toNat = (w.extractLsb' 0 8).toNat := rfl
  have hn : (fieldN w).toNat = (w.extractLsb' 0 4).toNat := rfl
  rw [← hc, ← hk, ← hn] at h
  show decode w = .nop w
  rcases h with ((⟨⟨h, h1⟩, h2⟩ | ⟨h, h1⟩) | ⟨⟨h, h1⟩, h2⟩) | ⟨h, h1⟩
  · simp only [decode, h]
    unfold decodeClass0
    split <;> first | rfl | omega
  · simp only [decode, h]
    unfold decodeClass8
    split <;> first | rfl | omega
  · simp only [decode, h]
    unfold decodeClassE
    split <;> first | rfl | omega
  · simp only [decode, h]
    unfold decodeClassF
    split <;> first | rfl | omega

end Sys2Proof.Laws
end

