-- ==== Sys2Proof/Tests/Slice0.lean ====
section
/-! SUPPORT. The model's own tests. Expected results are the vectors of 95_test_vectors.md (their ids are in the names:
S, E, FE, CF, A, M, D, T, K, H) or are worked out by hand from the rule named; none is the model's own answer. The last part
holds, for every obligation with hypotheses, concrete states and operands that meet them, clause by clause, at the
boundary values. -/

set_option Elab.async false

namespace Sys2Proof.Tests

open Sys2Proof.Machine

/-! ### Small states -/

/-- Registers set, in the order given. -/
def regs (l : List (RegIdx × Byte)) (s : State := State.reset) : State := l.foldl (fun u p => u.setV p.1 p.2) s

/-- Bytes stored from `a` on. -/
def bytes (a : Nat) (l : List Byte) (s : State) : State := s.setMem (s.mem.writeBytes a l)

/-- The word `w` at `pc`, about to be fetched. -/
def at' (pc : Word) (w : Nat) (s : State := State.reset) : State := (s.setPc pc).withFetchWord 16 w

/-- Only the keys listed are pressed. -/
def keys (l : List Nat) (s : State := State.reset) : State := setKeys (Vector.ofFn fun k => l.contains k.val) s

/-- Only the cells listed are lit. -/
def lit (l : List (Nat × Nat)) (s : State := State.reset) : State :=
  { s with fb := Vector.ofFn fun r => Vector.ofFn fun c => l.contains (r.val, c.val) }

/-- Whether a step completed, and the state it completed in. -/
def completes : Result → Bool
  | .next _ => true
  | .fault _ | .refused _ => false

def answer : Result → State
  | .next t => t
  | .fault _ | .refused _ => State.reset

theorem answer_of_completes {r : Result} (h : completes r = true) : r = .next (answer r) := by
  cases r <;> first | rfl | simp [completes] at h

/-- The state after one STEP. -/
def stepped (s : State) : State := answer (step s)

/-- The fault status as one tuple: faulted, code, fault_pc, fault_info, and pc. -/
def status (s : State) : Bool × BitVec 3 × Word × Word × Word := (s.faulted, s.faultCode, s.faultPc, s.faultInfo, s.pc)

/-! ### WellFormed: each ill-formed term is refused -/

theorem test_wf_nop_cls_word_refused : (Instr.nop 0x00E0#16).wf = false ∧ (Instr.nop 0x03EE#16).wf = false := by decide
theorem test_wf_nop_class1_to_7_refused :
    (Instr.nop 0x1000#16).wf = false ∧ (Instr.nop 0x4000#16).wf = false ∧ (Instr.nop 0x7000#16).wf = false := by decide
theorem test_wf_nop_class8_refused :
    (Instr.nop 0x8007#16).wf = false ∧ (Instr.nop 0x800E#16).wf = false ∧ (Instr.nop 0x8000#16).wf = false := by decide
theorem test_wf_nop_class9_to_D_refused : (Instr.nop 0x9001#16).wf = false ∧ (Instr.nop 0xD000#16).wf = false := by decide
theorem test_wf_nop_classE_refused : (Instr.nop 0xE09E#16).wf = false ∧ (Instr.nop 0xE3A1#16).wf = false := by decide
theorem test_wf_nop_classF_refused :
    (Instr.nop 0xF007#16).wf = false ∧ (Instr.nop 0xF30A#16).wf = false ∧ (Instr.nop 0xF065#16).wf = false := by decide
theorem test_wf_nop_accepted :
    (Instr.nop 0x0000#16).wf = true ∧ (Instr.nop 0x800D#16).wf = true ∧ (Instr.nop 0x800F#16).wf = true ∧
    (Instr.nop 0xE000#16).wf = true ∧ (Instr.nop 0xFFFF#16).wf = true := by decide

/-! ### Decode: one word of each constructor, written out from 30_encoding.md R72 -/

theorem test_decode_control_flow :
    decode 0b0000_0000_1110_1110#16 = .ret 0#4 ∧ decode 0b0001_0010_0000_0100#16 = .jp 0x204#12 ∧
    decode 0b0010_0010_0001_0000#16 = .call 0x210#12 ∧ decode 0b0011_0011_0000_0101#16 = .seVxKk 3#4 0x05#8 ∧
    decode 0b0100_0000_0000_0001#16 = .sneVxKk 0#4 0x01#8 ∧ decode 0b0101_0001_0010_0000#16 = .seVxVy 1#4 2#4 0#4 ∧
    decode 0b1001_0001_0010_0000#16 = .sneVxVy 1#4 2#4 0#4 ∧ decode 0b1011_0011_0000_0000#16 = .jpV0Nnn 0x300#12 ∧
    decode 0b0000_0001_0010_0011#16 = .nop 0x0123#16 := by decide
theorem test_decode_immediates_and_random :
    decode 0b0110_1010_0010_1011#16 = .ldVxKk 0xA#4 0x2B#8 ∧ decode 0b0111_0000_0000_0011#16 = .addVxKk 0#4 0x03#8 ∧
    decode 0b1100_0011_0000_1111#16 = .rndVxKk 3#4 0x0F#8 := by decide
theorem test_decode_register_pairs :
    decode 0b1000_0011_0111_0000#16 = .ldVxVy 3#4 7#4 ∧ decode 0b1000_0011_0111_0001#16 = .orVxVy 3#4 7#4 ∧
    decode 0b1000_0011_0111_0010#16 = .andVxVy 3#4 7#4 ∧ decode 0b1000_0011_0111_0011#16 = .xorVxVy 3#4 7#4 ∧
    decode 0b1000_0011_0111_0100#16 = .addVxVy 3#4 7#4 ∧ decode 0b1000_0011_0111_0101#16 = .subVxVy 3#4 7#4 ∧
    decode 0b1000_0011_0111_0110#16 = .shrVxVy 3#4 7#4 ∧ decode 0b1000_0011_0111_0111#16 = .subnVxVy 3#4 7#4 ∧
    decode 0b1000_0011_0111_1110#16 = .shlVxVy 3#4 7#4 := by decide
theorem test_decode_index_memory :
    decode 0b1010_0011_0000_0000#16 = .ldINnn 0x300#12 ∧ decode 0b1111_0010_0001_1110#16 = .addIVx 2#4 ∧
    decode 0b1111_0000_0010_1001#16 = .ldFVx 0#4 ∧ decode 0b1111_0101_0011_0011#16 = .ldBVx 5#4 ∧
    decode 0b1111_0001_0101_0101#16 = .ldMemVx 1#4 ∧ decode 0b1111_1111_0110_0101#16 = .ldVxMem 0xF#4 := by decide
theorem test_decode_display :
    decode 0b0000_0000_1110_0000#16 = .cls 0#4 ∧ decode 0b1101_0001_0010_0011#16 = .drw 1#4 2#4 3#4 := by decide
theorem test_decode_timers_input :
    decode 0b1110_0101_1001_1110#16 = .skpVx 5#4 ∧ decode 0b1110_0101_1010_0001#16 = .sknpVx 5#4 ∧
    decode 0b1111_0011_0000_0111#16 = .ldVxDt 3#4 ∧ decode 0b1111_0010_0000_1010#16 = .ldVxK 2#4 ∧
    decode 0b1111_0000_0001_0101#16 = .ldDtVx 0#4 ∧ decode 0b1111_0001_0001_1000#16 = .ldStVx 1#4 := by decide
theorem test_decode_E1_to_E17 :
    decode 0x03E0#16 = .cls 3#4 ∧ decode 0x0000#16 = .nop 0x0000#16 ∧ decode 0x00E1#16 = .nop 0x00E1#16 ∧
    decode 0x8AB6#16 = .shrVxVy 0xA#4 0xB#4 ∧ decode 0x8008#16 = .nop 0x8008#16 ∧ decode 0x800F#16 = .nop 0x800F#16 ∧
    decode 0x512F#16 = .seVxVy 1#4 2#4 0xF#4 ∧ decode 0x9121#16 = .sneVxVy 1#4 2#4 1#4 ∧
    decode 0xE19F#16 = .nop 0xE19F#16 ∧ decode 0xF156#16 = .nop 0xF156#16 ∧ decode 0xFFFF#16 = .nop 0xFFFF#16 ∧
    decode 0xB123#16 = .jpV0Nnn 0x123#12 := by decide
theorem test_fields_S1 :
    fieldMsb 0xD123#16 = 0xD000#16 ∧ fieldX 0xD123#16 = 1#4 ∧ fieldY 0xD123#16 = 2#4 ∧ fieldN 0xD123#16 = 3#4 ∧
    fieldNnn 0xD123#16 = 0x123#12 ∧ fieldKk 0xD123#16 = 0x23#8 := by decide
theorem test_bytes_big_endian :
    decodeBytes [0xD1#8, 0x23#8, 0x00#8] = .ok (.drw 1#4 2#4 3#4, [0x00#8]) ∧
    encodeBytes (.drw 1#4 2#4 3#4) = [0xD1#8, 0x23#8] ∧ decodeTableWord 16 0xD123 = some (.drw 1#4 2#4 3#4) := by decide
theorem test_bytes_truncated : decodeBytes [0xD1#8] = .error .truncated ∧ decodeBytes [] = .error .truncated := by decide

/-! ### Fetch (FE) -/

theorem test_fetch_FE1 : (stepped (bytes 0x200 [0x12#8, 0x34#8] State.reset)).pc = 0x234#16 := by decide +kernel
theorem test_fetch_FE2 : (stepped (State.reset.setPc 0xFFE#16)).pc = 0x1000#16 := by decide +kernel
theorem test_fetch_FE3 :
    status (stepped (State.reset.setPc 0xFFF#16)) = (true, 3#3, 0x0FFF#16, 0x1000#16, 0xFFF#16) := by decide +kernel
theorem test_fetch_FE4 :
    status (stepped (State.reset.setPc 0x1000#16)) = (true, 3#3, 0x1000#16, 0x1000#16, 0x1000#16) := by decide +kernel
theorem test_fetch_FE5_odd :
    (stepped (at' 0x201#16 0x607F)).getV 0#4 = 0x7F#8 ∧ (stepped (at' 0x201#16 0x607F)).pc = 0x203#16 := by
  decide +kernel
theorem test_fetch_FE6_faulted :
    stepped { State.reset with faulted := true } = { State.reset with faulted := true } := by decide +kernel

/-! ### Control flow (CF) -/

theorem test_ret_CF4 :
    let t := stepped (at' 0x212#16 0x00EE { State.reset with sp := 1, stack := State.reset.stack.set 0 0x206#16 })
    t.sp = 0 ∧ t.pc = 0x206#16 ∧ t.stack[0] = 0x206#16 := by decide +kernel
theorem test_ret_CF5 : status (stepped (at' 0x212#16 0x00EE)) = (true, 2#3, 0x212#16, 0#16, 0x212#16) := by decide +kernel
theorem test_jp_CF6 : (stepped (at' 0x208#16 0x1204)).pc = 0x204#16 := by decide +kernel
theorem test_call_CF2 :
    let t := stepped (at' 0x300#16 0x2400 { State.reset with sp := 15 })
    t.stack[15] = 0x302#16 ∧ t.sp = 16 ∧ t.pc = 0x400#16 := by decide +kernel
theorem test_call_CF3 :
    let s := at' 0x300#16 0x2400 { State.reset with sp := 16 }
    status (stepped s) = (true, 1#3, 0x300#16, 16#16, 0x300#16) ∧ (stepped s).sp = 16 ∧ (stepped s).stack = s.stack := by
  decide +kernel
theorem test_se_imm_CF7_CF8 :
    (stepped (at' 0x206#16 0x3305 (regs [(3#4, 5#8)]))).pc = 0x20A#16 ∧
    (stepped (at' 0x206#16 0x3305 (regs [(3#4, 4#8)]))).pc = 0x208#16 := by decide +kernel
theorem test_se_imm_CF17 : (stepped (at' 0xFFE#16 0x3000)).pc = 0x1002#16 := by decide +kernel
theorem test_sne_imm_CF9 : (stepped (at' 0x206#16 0x4305 (regs [(3#4, 4#8)]))).pc = 0x20A#16 := by decide +kernel
theorem test_se_reg_CF10_CF11 :
    (stepped (at' 0x300#16 0x5120 (regs [(1#4, 0x7F#8), (2#4, 0x7F#8)]))).pc = 0x304#16 ∧
    (stepped (at' 0x300#16 0x5440 (regs [(4#4, 9#8)]))).pc = 0x304#16 := by decide +kernel
theorem test_sne_reg_CF12_CF13 :
    (stepped (at' 0x300#16 0x9440 (regs [(4#4, 9#8)]))).pc = 0x302#16 ∧
    (stepped (at' 0x300#16 0x9120 (regs [(1#4, 1#8), (2#4, 2#8)]))).pc = 0x304#16 := by decide +kernel
theorem test_jp_v0_CF15 : (stepped (at' 0x200#16 0xB300 (regs [(0#4, 1#8)]))).pc = 0x301#16 := by decide +kernel
theorem test_jp_v0_CF16 :
    let t := stepped (at' 0x200#16 0xBFFF (regs [(0#4, 0xFF#8)]))
    t.pc = 0x10FE#16 ∧ status (stepped t) = (true, 3#3, 0x10FE#16, 0x10FE#16, 0x10FE#16) := by decide +kernel
theorem test_nop_CF18 : stepped State.reset = State.reset.setPc 0x202#16 := by decide +kernel

/-! ### Arithmetic and logic (A, S) -/

theorem test_ld_imm_A1 : (stepped (at' 0x200#16 0x6A2B)).getV 0xA#4 = 0x2B#8 := by decide +kernel
theorem test_add_imm_A2 :
    let t := stepped (at' 0x200#16 0x7003 (regs [(0#4, 0xFE#8), (vf, 0x55#8)]))
    t.getV 0#4 = 0x01#8 ∧ t.getV vf = 0x55#8 := by decide +kernel
theorem test_add_imm_A3 : (stepped (at' 0x200#16 0x7F01 (regs [(vf, 0x10#8)]))).getV vf = 0x11#8 := by decide +kernel

/-- V0 and VF after the register-pair word `w` on V0 = a, V1 = b, VF = f. -/
def pair (w : Nat) (a b f : Byte) : Byte × Byte :=
  let t := stepped (at' 0x200#16 w (regs [(0#4, a), (1#4, b), (vf, f)]))
  (t.getV 0#4, t.getV vf)

theorem test_ld_A4_A6 : pair 0x8010 0#8 0x42#8 1#8 = (0x42#8, 0#8) ∧ pair 0x80F0 0#8 0#8 0x42#8 = (0x42#8, 0#8) := by
  decide +kernel
theorem test_ld_A5 : pair 0x8F00 0x42#8 0#8 7#8 = (0x42#8, 0#8) := by decide +kernel
theorem test_or_A7 : pair 0x8011 0xF0#8 0x0F#8 1#8 = (0xFF#8, 0#8) := by decide +kernel
theorem test_and_A8 : pair 0x8012 0xF0#8 0x3C#8 1#8 = (0x30#8, 0#8) := by decide +kernel
theorem test_xor_A9_A10 :
    pair 0x8013 0xFF#8 0x0F#8 1#8 = (0xF0#8, 0#8) ∧ pair 0x8003 0x5A#8 0#8 1#8 = (0#8, 0#8) := by decide +kernel
theorem test_add_A11_A12_S2 :
    pair 0x8014 0x80#8 0x7F#8 0#8 = (0xFF#8, 0#8) ∧ pair 0x8014 0x80#8 0x80#8 0#8 = (0#8, 1#8) ∧
    pair 0x8014 0xFF#8 0x01#8 0#8 = (0#8, 1#8) := by decide +kernel
theorem test_add_A24_A25 :
    pair 0x8F14 0#8 1#8 0xFF#8 = (0#8, 1#8) ∧ pair 0x80F4 1#8 0#8 2#8 = (3#8, 0#8) := by decide +kernel
theorem test_sub_S3_S4_A20 :
    pair 0x8015 5#8 2#8 0#8 = (3#8, 1#8) ∧ pair 0x8015 2#8 5#8 0#8 = (0xFD#8, 0#8) ∧
    pair 0x8015 5#8 5#8 1#8 = (0#8, 0#8) := by decide +kernel
theorem test_sub_A26 : pair 0x8F15 0#8 2#8 5#8 = (0#8, 1#8) := by decide +kernel
theorem test_shr_S5_A13_A14 :
    pair 0x8016 3#8 5#8 0#8 = (2#8, 1#8) ∧ pair 0x8016 2#8 1#8 1#8 = (0#8, 0#8) ∧
    pair 0x8016 1#8 2#8 0#8 = (1#8, 1#8) := by decide +kernel
theorem test_shr_A15_A16 :
    pair 0x8006 5#8 0#8 0#8 = (2#8, 1#8) ∧ pair 0x8F16 0#8 4#8 3#8 = (0#8, 1#8) := by decide +kernel
theorem test_subn_A21_A22_A23 :
    pair 0x8017 2#8 5#8 0#8 = (3#8, 1#8) ∧ pair 0x8017 5#8 2#8 1#8 = (0xFD#8, 0#8) ∧
    pair 0x8017 5#8 5#8 1#8 = (0#8, 0#8) := by decide +kernel
theorem test_shl_A17_A18_A19 :
    pair 0x801E 0x81#8 0x41#8 0#8 = (0x82#8, 1#8) ∧ pair 0x801E 0#8 0x80#8 1#8 = (0#8, 0#8) ∧
    pair 0x801E 0x80#8 1#8 0#8 = (2#8, 1#8) := by decide +kernel

/-- RND with the vector's random input: the meaning is `rndWith` of a free input. -/
theorem test_rnd_A27_A29 :
    (rndWith 0xA7#8 3#4 0x0F#8 State.reset).getV 3#4 = 7#8 ∧ (rndWith 0xA7#8 3#4 0xFF#8 State.reset).getV 3#4 = 0xA7#8 ∧
    (rndWith 0xA7#8 3#4 0xFF#8 State.reset).draws = 1 := by decide +kernel

/-! ### Index register and memory (M) -/

theorem test_ld_i_M1 : (stepped (at' 0x200#16 0xA300)).i = 0x300#16 := by decide +kernel
theorem test_add_i_M2 : (stepped (at' 0x200#16 0xF21E (regs [(2#4, 0x10#8)] (State.reset.setI 0x300#16)))).i = 0x310#16 := by
  decide +kernel
theorem test_add_i_M3_M4 :
    let t := stepped (at' 0x200#16 0xF21E (regs [(2#4, 1#8)] (State.reset.setI 0xFFFF#16)))
    t.i = 0#16 ∧ t.getV vf = 0#8 ∧
    (stepped (at' 0x200#16 0xF21E (regs [(2#4, 1#8)] (State.reset.setI 0xFFF#16)))).i = 0x1000#16 := by decide +kernel
theorem test_ld_f_M5_M6_M7 :
    (stepped (at' 0x200#16 0xF029 (regs [(0#4, 0x0A#8)]))).i = 0x32#16 ∧
    (stepped (at' 0x200#16 0xF029 (regs [(0#4, 0x10#8)]))).i = 0x50#16 ∧
    (stepped (at' 0x200#16 0xF029 (regs [(0#4, 0xFF#8)]))).i = 0x4FB#16 := by decide +kernel
theorem test_ld_b_M9_M11 :
    (stepped (at' 0x200#16 0xF533 (regs [(5#4, 0xFF#8)] (State.reset.setI 0x300#16)))).mem.readBytes 0x300 3 =
      [2#8, 5#8, 5#8] ∧
    (stepped (at' 0x200#16 0xF533 (regs [(5#4, 0xEA#8)] (State.reset.setI 0xFFD#16)))).mem.readBytes 0xFFD 3 =
      [2#8, 3#8, 4#8] := by decide +kernel
theorem test_ld_b_M12 :
    let s := at' 0x200#16 0xF533 (regs [(5#4, 0xEA#8)] (State.reset.setI 0xFFE#16))
    status (stepped s) = (true, 3#3, 0x200#16, 0x1000#16, 0x200#16) ∧ (stepped s).mem = s.mem := by decide +kernel
theorem test_ld_mem_M13_M15 :
    let t := stepped (at' 0x200#16 0xF155 (regs [(0#4, 0x11#8), (1#4, 0x22#8)] (State.reset.setI 0x300#16)))
    let u := stepped (at' 0x200#16 0xF055 (regs [(0#4, 0x77#8)] (State.reset.setI 0xFFF#16)))
    t.mem.readBytes 0x300 2 = [0x11#8, 0x22#8] ∧ t.i = 0x302#16 ∧ u.mem.read 0xFFF = 0x77#8 ∧ u.i = 0x1000#16 := by
  decide +kernel
theorem test_ld_mem_M16_M17 :
    let s := at' 0x200#16 0xF155 (State.reset.setI 0xFFF#16)
    status (stepped s) = (true, 3#3, 0x200#16, 0x1000#16, 0x200#16) ∧ (stepped s).mem = s.mem ∧ (stepped s).i = s.i ∧
    status (stepped (at' 0x200#16 0xF055 (State.reset.setI 0x1000#16))) =
      (true, 3#3, 0x200#16, 0x1000#16, 0x200#16) := by decide +kernel
theorem test_ld_vx_mem_M19_M20 :
    let t := stepped (at' 0x200#16 0xF165 (bytes 0x300 [0x11#8, 0x22#8] (State.reset.setI 0x300#16)))
    let u := stepped (at' 0x200#16 0xFF65 (bytes 0x30F [0x5A#8] (State.reset.setI 0x300#16)))
    t.getV 0#4 = 0x11#8 ∧ t.getV 1#4 = 0x22#8 ∧ t.i = 0x302#16 ∧ u.getV vf = 0x5A#8 ∧ u.i = 0x310#16 := by
  decide +kernel
theorem test_ld_vx_mem_M18 :
    status (stepped (at' 0x200#16 0xF065 (State.reset.setI 0xFFFF#16))) =
      (true, 3#3, 0x200#16, 0xFFFF#16, 0x200#16) := by decide +kernel

/-! ### Display (D, S7, S8) -/

/-- V1 and V2 as coordinates, I = 0x300, the bytes there. -/
def sprite (vx vy : Byte) (b : List Byte) (s : State := State.reset) : State :=
  bytes 0x300 b (regs [(1#4, vx), (2#4, vy)] (s.setI 0x300#16))

/-- The cells at the (row, column) pairs listed. -/
def cells (l : List (Nat × Nat)) (s : State) : List Bool := l.map fun p => s.fb.get p.1 p.2

theorem test_cls_D1 :
    let t := stepped (at' 0x200#16 0x00E0 (regs [(vf, 9#8)] (lit [(0, 0), (31, 63)])))
    cells [(0, 0), (31, 63), (7, 7)] t = [false, false, false] ∧ t.redraw = true ∧ t.getV vf = 9#8 := by decide +kernel
theorem test_drw_S7_S8 :
    let t := stepped (at' 0x200#16 0xD121 (sprite 60#8 0#8 [0xFF#8]))
    let u := stepped (at' 0x202#16 0xD121 t)
    cells [(0, 59), (0, 60), (0, 63), (0, 0), (1, 60), (1, 0)] t = [false, true, true, false, false, false] ∧
    t.getV vf = 0#8 ∧ t.redraw = true ∧ cells [(0, 60), (0, 63), (0, 0)] u = [false, false, false] ∧ u.getV vf = 1#8 := by
  decide +kernel
theorem test_drw_D2_to_D9 :
    cells [(1, 6), (1, 7), (0, 6)] (stepped (at' 0x200#16 0xD121 (sprite 70#8 33#8 [0x80#8]))) = [true, false, false] ∧
    cells [(31, 0), (0, 0)] (stepped (at' 0x200#16 0xD122 (sprite 0#8 31#8 [0x80#8, 0x80#8]))) = [true, false] ∧
    (let t := stepped (at' 0x200#16 0xD122 (sprite 0#8 0#8 [0xC0#8, 0x80#8] (lit [(1, 0)])))
     cells [(0, 0), (0, 1), (1, 0)] t = [true, true, false] ∧ t.getV vf = 1#8) ∧
    (let t := stepped (at' 0x200#16 0xDFF1 (regs [(vf, 5#8)] (sprite 0#8 0#8 [0x80#8])))
     cells [(5, 5), (0, 0)] t = [true, false] ∧ t.getV vf = 0#8) ∧
    (let t := stepped (at' 0x200#16 0xD120 (regs [(vf, 5#8)] (State.reset.setI 0xFFFF#16)))
     t.getV vf = 0#8 ∧ t.redraw = true ∧ t.faulted = false) ∧
    (let s := at' 0x200#16 0xD122 (regs [(2#4, 31#8), (vf, 5#8)] (State.reset.setI 0xFFF#16))
     status (stepped s) = (true, 3#3, 0x200#16, 0x1000#16, 0x200#16) ∧ (stepped s).getV vf = 5#8 ∧
     (stepped s).redraw = false) := by decide +kernel

/-! ### Timers and keys (T, K) -/

theorem test_ld_vx_dt : (stepped (at' 0x200#16 0xF307 (State.reset.setDt 0x3C#8))).getV 3#4 = 0x3C#8 := by decide +kernel
theorem test_ld_dt_vx :
    (stepped (at' 0x200#16 0xF015 (regs [(0#4, 0x3C#8)]))).dt = 0x3C#8 ∧
    (stepped (at' 0x200#16 0xF015 (regs [(0#4, 0x3C#8)]))).st = 0#8 := by decide +kernel
theorem test_ld_st_vx :
    (stepped (at' 0x200#16 0xF118 (regs [(1#4, 5#8)]))).st = 5#8 ∧
    (stepped (at' 0x200#16 0xF118 (regs [(1#4, 5#8)]))).dt = 0#8 := by decide +kernel
theorem test_tick_S9_T6 :
    (tick (State.reset.setDt 1#8)).dt = 0#8 ∧ (tick (tick (State.reset.setDt 1#8))).dt = 0#8 ∧
    (tick { State.reset.setDt 2#8 with faulted := true }).dt = 1#8 := by decide +kernel
theorem test_skp_K1_K2_K4 :
    (stepped (at' 0x220#16 0xE59E (regs [(5#4, 0x0C#8)] (keys [0xC])))).pc = 0x224#16 ∧
    (stepped (at' 0x220#16 0xE59E (regs [(5#4, 0x0C#8)]))).pc = 0x222#16 ∧
    (stepped (at' 0x220#16 0xE59E (regs [(5#4, 0x0F#8)] (keys [0xF])))).pc = 0x224#16 := by decide +kernel
theorem test_skp_K5 :
    status (stepped (at' 0x220#16 0xE59E (regs [(5#4, 0x10#8)]))) = (true, 4#3, 0x220#16, 0x10#16, 0x220#16) := by
  decide +kernel
theorem test_sknp_K3 :
    (stepped (at' 0x220#16 0xE5A1 (regs [(5#4, 0x0F#8)]))).pc = 0x224#16 ∧
    (stepped (at' 0x220#16 0xE5A1 (regs [(5#4, 0x0F#8)] (keys [0xF])))).pc = 0x222#16 := by decide +kernel
theorem test_ld_vx_k_K6_K10 :
    (stepped (at' 0x240#16 0xF20A (regs [(2#4, 9#8)]))).pc = 0x240#16 ∧
    (stepped (at' 0x240#16 0xF20A (regs [(2#4, 9#8)]))).getV 2#4 = 9#8 ∧
    (stepped (at' 0x240#16 0xF20A (keys [0xF]))).pc = 0x240#16 := by decide +kernel
theorem test_ld_vx_k_K7_K8_K9 :
    (stepped (at' 0x240#16 0xF20A (keys [3, 7]))).getV 2#4 = 3#8 ∧ (stepped (at' 0x240#16 0xF20A (keys [3, 7]))).pc = 0x242#16 ∧
    (stepped (at' 0x240#16 0xF20A (regs [(2#4, 9#8)] (keys [0])))).getV 2#4 = 0#8 ∧
    (stepped (at' 0x240#16 0xF20A (keys [0xE]))).getV 2#4 = 0xE#8 := by decide +kernel

/-! ### Host operations (H) -/

theorem test_export_H1_H2 :
    let s := { lit [(1, 2)] with redraw := true }
    ((exportFrame s).1.map fun l => l.getD 66 false) = some true ∧ ((exportFrame s).1.map fun l => l.getD 65 true) = some false ∧
    (exportFrame s).2.redraw = false ∧ cells [(1, 2), (2, 1)] (exportFrame s).2 = [true, false] ∧
    (exportFrame (lit [(1, 2)])).1 = none := by decide +kernel
theorem test_reset_H3 :
    reset { lit [(0, 1)] (bytes 0x200 [1#8] State.reset) with faulted := true, faultCode := 3#3 } = State.reset := by
  decide +kernel
theorem test_load_H4 : load (List.replicate 3585 0xFF#8) State.reset = none := by decide +kernel
theorem test_load_H5 : (load [0x12#8, 0x34#8] State.reset).map (·.mem.readBytes 0x200 3) = some [0x12#8, 0x34#8, 0#8] := by
  decide +kernel
theorem test_font_glyph_A_G4 :
    State.reset.mem.readBytes 0x32 5 = [0xF0#8, 0x90#8, 0xF0#8, 0x90#8, 0x90#8] ∧ State.reset.mem.read 0x50 = 0#8 := by
  decide +kernel

/-! ### Witnesses: the hypotheses of every obligation that has some, met by concrete states and operands -/

/-- The state of a host run. -/
def after (ops : List HostOp) (s : State) : State × List Response :=
  match runOps ops s with
  | .next r => r
  | .fault _ | .refused _ => (s, [])

theorem witness_DecodeEncodeRoundTrip :
    (Instr.drw 1#4 2#4 3#4).wf = true ∧ (Instr.cls 3#4).wf = true ∧ (Instr.nop 0x800D#16).wf = true := by decide

/-- Each clause of `NopSpaceIsExact` at its edges: words of the no-op space and their nearest neighbours outside it. -/
theorem witness_NopSpaceIsExact :
    [0x00DF, 0x00E1, 0x00ED, 0x00EF, 0x8008, 0x800D, 0x800F, 0xE09D, 0xE0A2, 0xF006, 0xF066].all
      (fun w => decode (BitVec.ofNat 16 w) = .nop (BitVec.ofNat 16 w)) = true ∧
    [0x00E0, 0x00EE, 0x8007, 0x800E, 0xE09E, 0xE0A1, 0xF007, 0xF065, 0x1000, 0xD000].all
      (fun w => decode (BitVec.ofNat 16 w) ≠ .nop (BitVec.ofNat 16 w)) = true := by decide +kernel

/-- At the last pc that can be fetched from. -/
theorem witness_StepRunsDecodedInstruction :
    let s := at' 0xFFE#16 0xD123
    s.faulted = false ∧ s.pc.toNat ≤ 0xFFE ∧
      decodeBytes [s.mem.read s.pc.toNat, s.mem.read (s.pc.toNat + 1)] = .ok (.drw 1#4 2#4 3#4, []) := by decide +kernel

/-- Both branches of the info: the second byte out of range, and both. -/
theorem witness_FetchBeyondMemoryFaults :
    (let s := State.reset.setPc 0xFFF#16; s.faulted = false ∧ 0xFFE < s.pc.toNat ∧ ¬0xFFF < s.pc.toNat) ∧
    (let s := State.reset.setPc 0x1000#16; s.faulted = false ∧ 0xFFE < s.pc.toNat ∧ 0xFFF < s.pc.toNat) := by
  decide +kernel

theorem witness_OnlyResetLeavesFaulted :
    ∃ (s t : State) (answers : List Response), s.faulted = true ∧
      HostOp.reset ∉ [.step, .tick, .setKeys (Vector.replicate 16 true), .load [1#8], .exportFrame, .read .pc] ∧
      runOps [.step, .tick, .setKeys (Vector.replicate 16 true), .load [1#8], .exportFrame, .read .pc] s =
        .next (t, answers) :=
  ⟨{ State.reset with faulted := true, dt := 2#8 }, _, _, rfl, by simp, rfl⟩

/-- A run of every row of the fault table: (code, info) of the faulting STEP, from a state in RUN. -/
theorem witness_FaultsArePreciseAndListed :
    [at' 0x300#16 0x2400 { State.reset with sp := 16 }, at' 0x300#16 0x00EE, State.reset.setPc 0xFFF#16,
      at' 0x300#16 0xD122 (State.reset.setI 0xFFF#16), at' 0x300#16 0xF533 (State.reset.setI 0xFFE#16),
      at' 0x300#16 0xF155 (State.reset.setI 0xFFF#16), at' 0x300#16 0xF065 (State.reset.setI 0xFFFF#16),
      at' 0x300#16 0xE59E (regs [(5#4, 0x10#8)]), at' 0x300#16 0xE5A1 (regs [(5#4, 0xFF#8)])].map
      (fun s => (s.faulted, completes (step s), (stepped s).faulted, (stepped s).faultCode, (stepped s).faultInfo)) =
    [(false, true, true, 1#3, 16#16), (false, true, true, 2#3, 0#16), (false, true, true, 3#3, 0x1000#16),
      (false, true, true, 3#3, 0x1000#16), (false, true, true, 3#3, 0x1000#16), (false, true, true, 3#3, 0x1000#16),
      (false, true, true, 3#3, 0xFFFF#16), (false, true, true, 4#3, 0x10#16), (false, true, true, 4#3, 0xFF#16)] := by
  decide +kernel

/-- A state at the edges of the invariant: pc 0x10FE, a slot holding 0x1000, memory with its last byte written. -/
def edge : State :=
  bytes 0xFFF [1#8] { State.reset with pc := 0x10FE#16, sp := 1, stack := State.reset.stack.set 0 0x1000#16 }

theorem witness_StepKeepsInvariant : Inv edge ∧ step edge = .next (stepped edge) ∧ (stepped edge).faulted = true :=
  ⟨⟨by decide +kernel, by decide +kernel, by decide +kernel,
    ⟨fun _ => by decide +kernel, fun h => absurd h (by decide +kernel), fun h => absurd h (by decide +kernel)⟩⟩,
    answer_of_completes (by decide +kernel), by decide +kernel⟩

theorem witness_HostRunsKeepInvariant :
    ∃ (t : State) (answers : List Response), Inv edge ∧ runOps [.tick, .load [2#8, 3#8], .step, .read .i] edge = .next (t, answers) :=
  ⟨_, _, witness_StepKeepsInvariant.1, rfl⟩

theorem witness_OnlyCallAndRetMoveStack :
    (let s := at' 0x204#16 0x2210; step s = .next (stepped s) ∧ (stepped s).sp ≠ s.sp ∧ (stepped s).stack[0] ≠ s.stack[0]) ∧
    (let s := at' 0x212#16 0x00EE { State.reset with sp := 16 }; step s = .next (stepped s) ∧ (stepped s).sp ≠ s.sp) :=
  ⟨⟨answer_of_completes (by decide +kernel), by decide +kernel, by decide +kernel⟩,
    answer_of_completes (by decide +kernel), by decide +kernel⟩

theorem witness_OnlyDisplayWritesScreen :
    (let s := at' 0x200#16 0x00E0 (lit [(3, 4)]); step s = .next (stepped s) ∧
      (stepped s).fb[(3 : Fin 32)][(4 : Fin 64)] ≠ s.fb[(3 : Fin 32)][(4 : Fin 64)] ∧ (stepped s).redraw ≠ s.redraw) ∧
    (let s := at' 0x200#16 0xD121 { sprite 0#8 0#8 [0x80#8] with redraw := true }; step s = .next (stepped s) ∧
      (stepped s).fb[(0 : Fin 32)][(0 : Fin 64)] ≠ s.fb[(0 : Fin 32)][(0 : Fin 64)] ∧ s.redraw = true) :=
  ⟨⟨answer_of_completes (by decide +kernel), by decide +kernel, by decide +kernel⟩,
    answer_of_completes (by decide +kernel), by decide +kernel, by decide +kernel⟩

/-- The last byte each of the two can write. -/
theorem witness_OnlyStoresWriteMemory :
    (let s := at' 0x200#16 0xF533 (regs [(5#4, 0xEA#8)] (State.reset.setI 0xFFD#16)); step s = .next (stepped s) ∧
      (stepped s).mem.read 0xFFF ≠ s.mem.read 0xFFF) ∧
    (let s := at' 0x200#16 0xF155 (regs [(1#4, 0x22#8)] (State.reset.setI 0xFFE#16)); step s = .next (stepped s) ∧
      (stepped s).mem.read 0xFFF ≠ s.mem.read 0xFFF) :=
  ⟨⟨answer_of_completes (by decide +kernel), by decide +kernel⟩, answer_of_completes (by decide +kernel), by decide +kernel⟩

theorem witness_IndexAndTimerWriters :
    ([0xA300, 0xF01E, 0xF029, 0xF055, 0xF065].map fun w => at' 0x200#16 w (regs [(0#4, 3#8)])).all
      (fun s => completes (step s) && (stepped s).i != s.i) = true ∧
    (stepped (at' 0x200#16 0xF015 (regs [(0#4, 3#8)]))).dt ≠ 0#8 ∧
    (stepped (at' 0x200#16 0xF018 (regs [(0#4, 3#8)]))).st ≠ 0#8 := by decide +kernel

theorem witness_OnlySetKeysWritesKeys :
    step State.reset = .next (stepped State.reset) ∧
    ∃ (t : State) (answer : Response), applyOp (.load [1#8]) (keys [3]) = .next (t, answer) ∧ HostOp.load [1#8] ≠ .reset ∧
      ∀ k, HostOp.load [1#8] ≠ .setKeys k :=
  ⟨answer_of_completes (by decide +kernel), _, _, rfl, by simp, by simp⟩

theorem witness_UnreadStateNeverLeaks : step (at' 0x200#16 0xF118) = .next (stepped (at' 0x200#16 0xF118)) :=
  answer_of_completes (by decide +kernel)

/-- STEP of CLS; the word at pc is none of the three. -/
theorem witness_KeysAreReadByThreeInstructions :
    let s := at' 0x200#16 0x00E0 (keys [3])
    step s = .next (stepped s) ∧ ∀ x, ¬ FetchesWord s (encode (.skpVx x)) ∧ ¬ FetchesWord s (encode (.sknpVx x)) ∧
      ¬ FetchesWord s (encode (.ldVxK x)) := by
  refine ⟨answer_of_completes (by decide +kernel), ?_⟩
  unfold FetchesWord
  decide +kernel

theorem witness_ResetLeavesTheListedValues :
    (∃ t : State, t = State.reset) ∧
    applyOp .reset { lit [(0, 1)] with faulted := true, draws := 7 } = .next ({ State.reset with draws := 7 }, .done) :=
  ⟨⟨_, rfl⟩, rfl⟩

theorem witness_ExportHandsOverCells :
    ({ State.reset with redraw := true } : State).redraw = true ∧ State.reset.redraw = false := ⟨rfl, rfl⟩

/-- The longest image LOAD takes, and one byte more. -/
theorem witness_LoadWritesImageVerbatim :
    State.reset.mem.wf = true ∧ (List.replicate 3584 0xFF#8).length ≤ 3584 ∧ 3584 < (List.replicate 3585 0xFF#8).length :=
  ⟨rfl, by rw [List.length_replicate], by rw [List.length_replicate]; omega⟩

theorem witness_ReadShowsAllState :
    edge.mem.wf = true ∧ edge.draws = edge.draws ∧
      ∀ sel, applyOp (.read sel) edge = .next (edge, .value (readState sel edge)) :=
  ⟨by decide +kernel, rfl, fun _ => rfl⟩

/-- SP = 1 and 16 pop, SP = 0 underflows. -/
theorem witness_RetPopsOrUnderflows :
    0 < ({ State.reset with sp := 1 } : State).sp.val ∧ 0 < ({ State.reset with sp := 16 } : State).sp.val ∧
      State.reset.sp.val = 0 := by decide

/-- SP = 0 and 15 push, SP = 16 overflows. -/
theorem witness_CallPushesOrOverflows :
    State.reset.sp.val < 16 ∧ ({ State.reset with sp := 15 } : State).sp.val < 16 ∧
      ({ State.reset with sp := 16 } : State).sp.val = 16 := by decide

theorem witness_ImmediateSkips : (regs [(3#4, 5#8)]).getV 3#4 = 5#8 ∧ (regs [(3#4, 5#8)]).getV 3#4 ≠ 4#8 := by decide +kernel

/-- Equal registers (x = y among them) and different ones. -/
theorem witness_RegisterSkips :
    (regs [(1#4, 7#8), (2#4, 7#8)]).getV 1#4 = (regs [(1#4, 7#8), (2#4, 7#8)]).getV 2#4 ∧
    (regs [(1#4, 7#8)]).getV 1#4 = (regs [(1#4, 7#8)]).getV 1#4 ∧
    (regs [(1#4, 7#8)]).getV 1#4 ≠ (regs [(1#4, 7#8)]).getV 2#4 := by decide +kernel

theorem witness_NopChangesNothing : isNopWord 0x0000#16 = true ∧ isNopWord 0xFFFF#16 = true := by decide

/-- The deepest CALL, whose subroutine then writes registers and moves pc. -/
theorem witness_RetResumesAfterCall :
    let s := { State.reset with sp := 15, pc := 0x302#16 }
    let t := answer (exec (.call 0x400#12) s)
    let t' := (t.setPc 0x410#16).setV 3#4 9#8
    s.sp.val < 16 ∧ exec (.call 0x400#12) s = .next t ∧ t'.sp = t.sp ∧ t'.stack[15] = t.stack[15] :=
  ⟨by decide, answer_of_completes (by decide +kernel), rfl, rfl⟩

theorem witness_SelfJumpSettles : Settled (at' 0x20A#16 0x120A) :=
  ⟨0x20A#12, by unfold FetchesWord; decide +kernel, by decide +kernel⟩

/-- Destinations other than VF, for the clauses of the register-pair statements. -/
theorem witness_register_pairs : (0#4 : RegIdx) ≠ vf ∧ (14#4 : RegIdx) ≠ vf := by decide

theorem witness_RandomIsMaskedFreshInput : (0#8 : Byte) = 0#8 := rfl

/-- I + 2 = 0xFFF and 0x1000, memory canonical. -/
theorem witness_BcdStoresThreeDigits :
    (State.reset.setI 0xFFD#16).i.toNat + 2 ≤ 0xFFF ∧ (State.reset.setI 0xFFD#16).mem.wf = true ∧
      0xFFF < (State.reset.setI 0xFFE#16).i.toNat + 2 := by decide +kernel

/-- I + x = 0xFFF and 0x1000, with x = 0 and x = 0xF; a register of the block and one outside it. -/
theorem witness_StoreRegistersBlock :
    (State.reset.setI 0xFF0#16).i.toNat + (0xF#4 : RegIdx).toNat ≤ 0xFFF ∧ (State.reset.setI 0xFF0#16).mem.wf = true ∧
    (0xF#4 : RegIdx).toNat ≤ (0xF#4 : RegIdx).toNat ∧ (State.reset.setI 0xFFF#16).i.toNat + (0#4 : RegIdx).toNat ≤ 0xFFF ∧
    0xFFF < (State.reset.setI 0xFF1#16).i.toNat + (0xF#4 : RegIdx).toNat ∧
    0xFFF < (State.reset.setI 0x1000#16).i.toNat + (0#4 : RegIdx).toNat := by decide +kernel

theorem witness_LoadRegistersBlock :
    (State.reset.setI 0xFFE#16).i.toNat + (1#4 : RegIdx).toNat ≤ 0xFFF ∧ (1#4 : RegIdx).toNat ≤ (1#4 : RegIdx).toNat ∧
      0xFFF < (State.reset.setI 0xFFF#16).i.toNat + (1#4 : RegIdx).toNat := by decide +kernel

theorem witness_StoreThenLoadRestoresRegisters :
    let s := regs [(0#4, 0x11#8), (1#4, 0x22#8), (2#4, 0x33#8)] (State.reset.setI 0xFFD#16)
    let t := answer (exec (.ldMemVx 2#4) s)
    let t' := (t.setV 0#4 0#8).setI 0xFFD#16
    s.mem.wf = true ∧ s.i.toNat + (2#4 : RegIdx).toNat ≤ 0xFFF ∧ exec (.ldMemVx 2#4) s = .next t ∧ t'.mem = t.mem ∧
      t'.i = s.i ∧ (2#4 : RegIdx).toNat < (3#4 : RegIdx).toNat :=
  ⟨by decide +kernel, by decide +kernel, answer_of_completes (by decide +kernel), rfl, by decide +kernel, by decide⟩

/-- n = 0 with I anywhere, I + n = 0x1000 and 0x1001; a lit cell that is turned off, and a frame with none. -/
theorem witness_DrawTogglesClipsAndCollides :
    ((0#4 : Nibble) = 0#4 ∨ (State.reset.setI 0xFFFF#16).i.toNat + (0#4 : Nibble).toNat ≤ 0x1000) ∧
    (State.reset.setI 0xFFE#16).i.toNat + (2#4 : Nibble).toNat ≤ 0x1000 ∧
    ((2#4 : Nibble) ≠ 0#4 ∧ 0x1000 < (State.reset.setI 0xFFF#16).i.toNat + (2#4 : Nibble).toNat) ∧
    (let s := sprite 0#8 0#8 [0x80#8] (lit [(0, 0)]); s.fb[(0 : Fin 32)][(0 : Fin 64)] = true ∧
      (answer (exec (.drw 1#4 2#4 1#4) s)).fb[(0 : Fin 32)][(0 : Fin 64)] = false) ∧
    (∀ (r : Fin 32) (c : Fin 64), State.reset.fb[r][c] = true →
      (answer (exec (.drw 1#4 2#4 1#4) (sprite 0#8 0#8 [0x80#8]))).fb[r][c] = true) :=
  ⟨by decide +kernel, by decide +kernel, by decide +kernel, by decide +kernel,
    fun r c h => by simp [State.reset, Screen.clear] at h⟩

/-- A sprite on a dark screen (the second draw collides), and one that covers only a lit cell (it does not). -/
theorem witness_DrawTwiceRestoresScreen :
    (1#4 : RegIdx) ≠ vf ∧ (2#4 : RegIdx) ≠ vf ∧
    (let s := sprite 0#8 0#8 [0x80#8]; let t := answer (exec (.drw 1#4 2#4 1#4) s)
     s.i.toNat + (1#4 : Nibble).toNat ≤ 0x1000 ∧ exec (.drw 1#4 2#4 1#4) s = .next t ∧
     exec (.drw 1#4 2#4 1#4) t = .next (answer (exec (.drw 1#4 2#4 1#4) t)) ∧
     spriteCovers s 1#4 2#4 1#4 0 0 = true ∧ s.fb[(0 : Fin 32)][(0 : Fin 64)] = false) ∧
    (let s := sprite 0#8 0#8 [0x80#8] (lit [(0, 0)]); let t := answer (exec (.drw 1#4 2#4 1#4) s)
     exec (.drw 1#4 2#4 1#4) s = .next t ∧ exec (.drw 1#4 2#4 1#4) t = .next (answer (exec (.drw 1#4 2#4 1#4) t)) ∧
     ∀ (r : Fin 32) (c : Fin 64), spriteCovers s 1#4 2#4 1#4 r c = true → s.fb[r][c] = true) :=
  ⟨by decide, by decide,
    ⟨by decide +kernel, answer_of_completes (by decide +kernel), answer_of_completes (by decide +kernel),
      by decide +kernel, by decide +kernel⟩,
    answer_of_completes (by decide +kernel), answer_of_completes (by decide +kernel), by decide +kernel⟩

/-- Key 0xF pressed and released, and the first index above it. -/
theorem witness_KeySkips :
    ((regs [(5#4, 0xF#8)]).getV 5#4).toNat < 16 ∧ (keys [0xF]).key[0xF] = true ∧ (keys []).key[0xF] = false ∧
      0xF < ((regs [(5#4, 0x10#8)]).getV 5#4).toNat := by decide +kernel

/-- The lowest and the highest key of the scan, no key, and key 0xF alone. -/
theorem witness_WaitKeyTakesLowestOrRepeats :
    ((keys [0, 3]).key[(0 : Fin 15).val] = true ∧ ∀ j : Fin 15, j < 0 → (keys [0, 3]).key[j.val] = false) ∧
    ((keys [14, 15]).key[(14 : Fin 15).val] = true ∧ ∀ j : Fin 15, j < 14 → (keys [14, 15]).key[j.val] = false) ∧
    (∀ k : Fin 15, (keys []).key[k.val] = false) ∧ ∀ k : Fin 15, (keys [15]).key[k.val] = false := by decide +kernel

end Sys2Proof.Tests
end

section
/-! Every word is the word of the instruction it decodes to, and that instruction is well-formed (30_encoding.md R73;
log entry 6). So what STEP executes can be named by the word that lies at pc. -/

namespace Sys2Proof.Laws

section
variable {w : Word}

theorem formatA_of_class {c : Nibble} (hc : (fieldClass w).toNat = c.toNat) : formatA c (fieldNnn w) = w := by
  rw [← BitVec.eq_of_toNat_eq hc, formatA_fields]

theorem formatXK_of_class {c : Nibble} (hc : (fieldClass w).toNat = c.toNat) :
    formatXK c (fieldX w) (fieldKk w) = w := by
  rw [← BitVec.eq_of_toNat_eq hc, formatXK_fields]

theorem formatXK_of_class_kk {c : Nibble} {kk : Byte} (hc : (fieldClass w).toNat = c.toNat)
    (hk : (fieldKk w).toNat = kk.toNat) : formatXK c (fieldX w) kk = w := by
  rw [← BitVec.eq_of_toNat_eq hk, formatXK_of_class hc]

theorem formatXYN_of_class {c : Nibble} (hc : (fieldClass w).toNat = c.toNat) :
    formatXYN c (fieldX w) (fieldY w) (fieldN w) = w := by
  rw [← BitVec.eq_of_toNat_eq hc, formatXYN_fields]

theorem formatXYN_of_class_n {c n : Nibble} (hc : (fieldClass w).toNat = c.toNat)
    (hn : (fieldN w).toNat = n.toNat) : formatXYN c (fieldX w) (fieldY w) n = w := by
  rw [← BitVec.eq_of_toNat_eq hn, formatXYN_of_class hc]

theorem encode_decodeClass0 (hc : (fieldClass w).toNat = 0x0) : encode (decodeClass0 w) = w := by
  unfold decodeClass0
  split
  case h_3 => rfl
  all_goals exact formatXK_of_class_kk hc ‹_›

theorem encode_decodeClass8 (hc : (fieldClass w).toNat = 0x8) : encode (decodeClass8 w) = w := by
  unfold decodeClass8
  split
  case h_10 => rfl
  all_goals exact formatXYN_of_class_n hc ‹_›

theorem encode_decodeClassE (hc : (fieldClass w).toNat = 0xE) : encode (decodeClassE w) = w := by
  unfold decodeClassE
  split
  case h_3 => rfl
  all_goals exact formatXK_of_class_kk hc ‹_›

theorem encode_decodeClassF (hc : (fieldClass w).toNat = 0xF) : encode (decodeClassF w) = w := by
  unfold decodeClassF
  split
  case h_10 => rfl
  all_goals exact formatXK_of_class_kk hc ‹_›

/-- Decoding loses nothing of a word. -/
theorem encode_decode (w : Word) : encode (decode w) = w := by
  unfold decode
  split
  case h_1 => exact encode_decodeClass0 ‹_›
  case h_9 => exact encode_decodeClass8 ‹_›
  case h_15 => exact encode_decodeClassE ‹_›
  case h_16 =>
    have := (fieldClass w).isLt
    simp only [imp_false] at *
    exact encode_decodeClassF (by omega)
  case h_2 | h_3 | h_11 | h_12 => exact formatA_of_class ‹_›
  case h_4 | h_5 | h_7 | h_8 | h_13 => exact formatXK_of_class ‹_›
  case h_6 | h_10 | h_14 => exact formatXYN_of_class ‹_›

theorem isNopWord_iff : isNopWord w = true ↔
    ((fieldClass w).toNat = 0x0 ∧ (fieldKk w).toNat ≠ 0xE0 ∧ (fieldKk w).toNat ≠ 0xEE) ∨
    ((fieldClass w).toNat = 0x8 ∧ (0x8 ≤ (fieldN w).toNat ∧ (fieldN w).toNat ≤ 0xD ∨ (fieldN w).toNat = 0xF)) ∨
    ((fieldClass w).toNat = 0xE ∧ (fieldKk w).toNat ≠ 0x9E ∧ (fieldKk w).toNat ≠ 0xA1) ∨
    ((fieldClass w).toNat = 0xF ∧
      (fieldKk w).toNat ∉ [0x07, 0x0A, 0x15, 0x18, 0x1E, 0x29, 0x33, 0x55, 0x65]) := by
  simp [isNopWord, fieldClass, fieldKk, fieldN, or_assoc, and_assoc]

theorem wf_decodeClass0 (hc : (fieldClass w).toNat = 0x0) : (decodeClass0 w).wf = true := by
  unfold decodeClass0
  split
  case h_3 h0 hE => exact isNopWord_iff.2 (Or.inl ⟨hc, h0, hE⟩)
  all_goals rfl

theorem wf_decodeClass8 (hc : (fieldClass w).toNat = 0x8) : (decodeClass8 w).wf = true := by
  unfold decodeClass8
  split
  case h_10 =>
    have := (fieldN w).isLt
    simp only [imp_false] at *
    exact isNopWord_iff.2 (by omega)
  all_goals rfl

theorem wf_decodeClassE (hc : (fieldClass w).toNat = 0xE) : (decodeClassE w).wf = true := by
  unfold decodeClassE
  split
  case h_3 h9 hA => exact isNopWord_iff.2 (Or.inr (Or.inr (Or.inl ⟨hc, h9, hA⟩)))
  all_goals rfl

theorem wf_decodeClassF (hc : (fieldClass w).toNat = 0xF) : (decodeClassF w).wf = true := by
  unfold decodeClassF
  split
  case h_10 =>
    refine isNopWord_iff.2 (Or.inr (Or.inr (Or.inr ⟨hc, ?_⟩)))
    simp only [imp_false, List.mem_cons, List.not_mem_nil, or_false] at *
    omega
  all_goals rfl

/-- Every word decodes to an instruction that some word encodes. -/
theorem wf_decode (w : Word) : (decode w).wf = true := by
  unfold decode
  split
  case h_1 => exact wf_decodeClass0 ‹_›
  case h_9 => exact wf_decodeClass8 ‹_›
  case h_15 => exact wf_decodeClassE ‹_›
  case h_16 =>
    have := (fieldClass w).isLt
    simp only [imp_false] at *
    exact wf_decodeClassF (by omega)
  all_goals rfl

end

end Sys2Proof.Laws
end

section
/-! What a meaning can answer, said once for each shared operation and each meaning with more than one outcome: a proof
about all instructions cites these rules and splits no meaning's branches itself. -/

namespace Sys2Proof.Machine

/-- The step answers a next state, and that state meets `P`. -/
def Answers (P : State → Prop) : Result → Prop
  | .next t => P t
  | .fault _ | .refused _ => False

theorem answers_iff {P : State → Prop} {r : Result} : Answers P r ↔ ∃ t, r = .next t ∧ P t := by
  cases r <;> simp [Answers]

theorem Answers.of_eq_next {P : State → Prop} {r : Result} {t : State} (h : Answers P r) (hr : r = .next t) : P t := by
  subst hr
  exact h

section
variable {P : State → Prop} {s t : State}

/-- A checked access (20_memory.md R49). -/
theorem answers_withAccess {n : Nat} (ht : n = 0 ∨ s.i.toNat + n ≤ 0x1000 → P t) (hf : 0x1000 < s.i.toNat + n →
      P (s.enterFault .memoryAccess (s.pc - 2#16) (BitVec.ofNat 16 (max s.i.toNat 0x1000)))) :
    Answers P (withAccess n s t) := by
  rcases withAccess_cases n s t with ⟨hin, h⟩ | ⟨-, hout, h⟩
  · rw [h]; exact ht hin
  · rw [h]; exact hf hout

theorem execRet_of_pos (h : 0 < s.sp.val) : execRet s = .next (s.popPc h) := dif_pos h

theorem execRet_of_zero (h : s.sp.val = 0) :
    execRet s = .next (s.enterFault .stackUnderflow (s.pc - 2#16) 0#16) := by
  rw [execRet, dif_neg (by omega), h, raise_eq]

theorem execCall_of_lt {nnn : Addr} (h : s.sp.val < 16) :
    execCall nnn s = .next ((s.pushPc h).setPc (addrOperand nnn)) := dif_pos h

theorem execCall_of_full {nnn : Addr} (h : s.sp.val = 16) :
    execCall nnn s = .next (s.enterFault .stackOverflow (s.pc - 2#16) 16#16) := by
  rw [execCall, dif_neg (by omega), h, raise_eq]

/-- RET (40_control_flow.md R77). -/
theorem answers_execRet (hpop : ∀ h, P (s.popPc h)) (hf : P (s.enterFault .stackUnderflow (s.pc - 2#16) 0#16)) :
    Answers P (execRet s) := by
  by_cases h : 0 < s.sp.val
  · rw [execRet_of_pos h]; exact hpop h
  · rw [execRet_of_zero (by omega)]; exact hf

/-- CALL (40_control_flow.md R79). -/
theorem answers_execCall {nnn : Addr} (hpush : ∀ h, P ((s.pushPc h).setPc (addrOperand nnn)))
    (hf : P (s.enterFault .stackOverflow (s.pc - 2#16) 16#16)) : Answers P (execCall nnn s) := by
  by_cases h : s.sp.val < 16
  · rw [execCall_of_lt h]; exact hpush h
  · rw [execCall_of_full (by omega)]; exact hf

section
variable {x : RegIdx}

theorem execSkpVx_of_some {b : Bool} (h : s.keyPressed (s.getV x) = some b) :
    execSkpVx x s = .next (s.skipIf b) := by
  rw [execSkpVx, h]

theorem execSkpVx_of_none (h : s.keyPressed (s.getV x) = none) :
    execSkpVx x s = .next (s.enterFault .keyIndex (s.pc - 2#16) (keyInfo (s.getV x))) := by
  rw [execSkpVx, h, raise_eq]

theorem execSknpVx_of_some {b : Bool} (h : s.keyPressed (s.getV x) = some b) :
    execSknpVx x s = .next (s.skipIf !b) := by
  rw [execSknpVx, h]

theorem execSknpVx_of_none (h : s.keyPressed (s.getV x) = none) :
    execSknpVx x s = .next (s.enterFault .keyIndex (s.pc - 2#16) (keyInfo (s.getV x))) := by
  rw [execSknpVx, h, raise_eq]

theorem le_of_keyPressed_eq_none {k : Byte} (h : s.keyPressed k = none) : 16 ≤ k.toNat := by
  by_contra hlt
  rw [keyPressed_of_lt (by omega)] at h
  cases h

/-- SKP (44_timers_input.md R111). -/
theorem answers_execSkpVx (hskip : ∀ b, P (s.skipIf b)) (hf : 16 ≤ (s.getV x).toNat →
      P (s.enterFault .keyIndex (s.pc - 2#16) (keyInfo (s.getV x)))) : Answers P (execSkpVx x s) := by
  cases h : s.keyPressed (s.getV x) with
  | some b => rw [execSkpVx_of_some h]; exact hskip b
  | none => rw [execSkpVx_of_none h]; exact hf (le_of_keyPressed_eq_none h)

/-- SKNP (44_timers_input.md R112). -/
theorem answers_execSknpVx (hskip : ∀ b, P (s.skipIf b)) (hf : 16 ≤ (s.getV x).toNat →
      P (s.enterFault .keyIndex (s.pc - 2#16) (keyInfo (s.getV x)))) : Answers P (execSknpVx x s) := by
  cases h : s.keyPressed (s.getV x) with
  | some b => rw [execSknpVx_of_some h]; exact hskip !b
  | none => rw [execSknpVx_of_none h]; exact hf (le_of_keyPressed_eq_none h)

theorem execLdVxK_of_some {k : Nat} (h : s.firstKey = some k) :
    execLdVxK x s = .next (((s.setPc (s.pc - 2#16)).setV x (BitVec.ofNat 8 k)).setPc (s.pc - 2#16 + 2#16)) := by
  simp only [execLdVxK, h, State.setPc_pc]

theorem execLdVxK_of_none (h : s.firstKey = none) : execLdVxK x s = .next (s.setPc (s.pc - 2#16)) := by
  simp only [execLdVxK, h]

/-- LD Vx, K (44_timers_input.md R114). -/
theorem answers_execLdVxK
    (hkey : ∀ k, P (((s.setPc (s.pc - 2#16)).setV x (BitVec.ofNat 8 k)).setPc (s.pc - 2#16 + 2#16)))
    (hwait : P (s.setPc (s.pc - 2#16))) : Answers P (execLdVxK x s) := by
  cases h : s.firstKey with
  | some k => rw [execLdVxK_of_some h]; exact hkey _
  | none => rw [execLdVxK_of_none h]; exact hwait

end

/-- STEP (10_state.md R35): nothing in FAULTED, a fetch fault, or the decoded instruction. -/
theorem answers_step (hfaulted : s.faulted = true → P s)
    (hfetch : s.faulted = false → 0xFFE < s.pc.toNat →
      P (s.enterFault .memoryAccess s.pc (BitVec.ofNat 16 (max s.pc.toNat 0x1000))))
    (hexec : s.faulted = false → s.pc.toNat ≤ 0xFFE →
      Answers P (exec (decode (s.mem.readWord s.pc.toNat)) (s.setPc (s.pc + 2#16)))) :
    Answers P (step s) := by
  rcases step_cases s with ⟨hf, h⟩ | ⟨hf, hpc, h⟩ | ⟨hf, hpc, h⟩ <;> rw [h]
  · exact hfaulted hf
  · exact hfetch hf hpc
  · exact hexec hf hpc

end

/-! ### The host operations (10_state.md R33 to R41) -/

/-- An image of at most 3584 bytes is written from 0x200 on (10_state.md R39). -/
theorem load_of_le {image : List Byte} (h : image.length ≤ 3584) (s : State) :
    load image s = some (s.setMem (s.mem.writeBytes 0x200 image)) := if_pos h

/-- A longer image is refused (10_state.md R39). -/
theorem load_of_gt {image : List Byte} (h : 3584 < image.length) (s : State) : load image s = none :=
  if_neg (Nat.not_le_of_lt h)

/-- What a host operation can do to the state, one constructor for each change it can make. -/
inductive OpEffect (s : State) : HostOp → State → Prop
  | step {t : State} (h : step s = .next t) : OpEffect s .step t
  | tick : OpEffect s .tick (tick s)
  | frameHandedOver : OpEffect s .exportFrame { s with redraw := false }
  | frameUnchanged : OpEffect s .exportFrame s
  | setKeys (keys : Vector Bool 16) : OpEffect s (.setKeys keys) (setKeys keys s)
  | loaded (image : List Byte) (h : image.length ≤ 3584) :
    OpEffect s (.load image) (s.setMem (s.mem.writeBytes 0x200 image))
  | loadRefused (image : List Byte) : OpEffect s (.load image) s
  | reset : OpEffect s .reset (reset s)
  | read (sel : ReadSel) : OpEffect s (.read sel) s

theorem opEffect_of_applyOp {op : HostOp} {s t : State} {answer : Response}
    (h : applyOp op s = .next (t, answer)) : OpEffect s op t := by
  cases op with
  | step =>
    cases hs : step s with
    | next u =>
      simp only [applyOp, hs] at h
      cases h
      exact .step hs
    | fault r | refused r => simp [applyOp, hs] at h
  | exportFrame =>
    by_cases hr : s.redraw = true
    · simp only [applyOp, exportFrame, hr, if_true] at h
      cases h
      exact .frameHandedOver
    · simp only [applyOp, exportFrame, hr] at h
      cases h
      exact .frameUnchanged
  | load image =>
    by_cases hl : image.length ≤ 3584
    · simp only [applyOp, load_of_le hl] at h
      cases h
      exact .loaded image hl
    · simp only [applyOp, load_of_gt (Nat.lt_of_not_le hl)] at h
      cases h
      exact .loadRefused image
  | tick | setKeys | reset | read =>
    cases h
    constructor

end Sys2Proof.Machine
end

section
/-! The invariant: one rule per state operation, then every instruction, STEP and every host operation. -/

namespace Sys2Proof.Machine

section
variable {s t : State}

/-- What the invariant reads of a state. -/
def invView (s : State) : Memory × Word × Vector Word 16 × Bool × BitVec 3 × Word × Word :=
  (s.mem, s.pc, s.stack, s.faulted, s.faultCode, s.faultPc, s.faultInfo)

/-- An update of registers, I, timers, screen or keys keeps the invariant: it reads none of them. -/
theorem Inv.of_invView_eq (hs : Inv s) (h : invView t = invView s) : Inv t := by
  simp only [invView, Prod.mk.injEq] at h
  obtain ⟨hmem, hpc, hstack, hfaulted, hcode, hfpc, hinfo⟩ := h
  obtain ⟨hclear, hheld, hcause⟩ := hs.status
  exact ⟨hmem ▸ hs.memory, hpc ▸ hs.pcBound, hstack ▸ hs.slotBound,
    ⟨by rwa [hfaulted, hcode, hfpc, hinfo], by rwa [hfaulted, hfpc, hpc], by rwa [hfaulted, hcode, hinfo]⟩⟩

theorem Inv.setMem (hs : Inv s) {m : Memory} (hm : m.wf = true) : Inv (s.setMem m) :=
  ⟨hm, hs.pcBound, hs.slotBound, ⟨hs.status.clear, hs.status.pcHeld, hs.status.cause⟩⟩

/-- While the block runs, pc is free below its bound: only FAULTED ties it to fault_pc. -/
theorem Inv.setPc (hs : Inv s) (hrun : s.faulted = false) {a : Word} (ha : a.toNat ≤ 0x10FE) : Inv (s.setPc a) :=
  ⟨hs.memory, ha, hs.slotBound,
    ⟨hs.status.clear, fun hf => absurd (hrun.symm.trans hf) Bool.false_ne_true, hs.status.cause⟩⟩

/-- A pushed pc is a return address of at most 0x1000 (40_control_flow.md R77, R79). -/
theorem Inv.pushPc (hs : Inv s) (hpc : s.pc.toNat ≤ 0x1000) (h : s.sp.val < 16) : Inv (s.pushPc h) := by
  refine ⟨hs.memory, hs.pcBound, fun j => ?_, ⟨hs.status.clear, hs.status.pcHeld, hs.status.cause⟩⟩
  show ((s.stack.set s.sp.val s.pc h)[j.val]).toNat ≤ 0x1000
  rw [Vector.getElem_set]
  split
  · exact hpc
  · exact hs.slotBound j

/-- A popped pc is a stack slot, so at most 0x1000 (40_control_flow.md R77). -/
theorem Inv.popPc (hs : Inv s) (hrun : s.faulted = false) (h : 0 < s.sp.val) : Inv (s.popPc h) := by
  have hslot : (s.stack[s.sp.val - 1]'(by omega)).toNat ≤ 0x1000 := hs.slotBound ⟨s.sp.val - 1, by omega⟩
  have hs' : Inv (s.setPc (s.stack[s.sp.val - 1]'(by omega))) := hs.setPc hrun (by omega)
  exact hs'.of_invView_eq rfl

/-- The info a fault of this cause can have (60_exceptions.md R117). -/
def FaultCause.InfoOk : FaultCause → Word → Prop
  | .stackOverflow, info => info = 16#16
  | .stackUnderflow, info => info = 0#16
  | .memoryAccess, info => 0x1000 ≤ info.toNat
  | .keyIndex, info => 0x10 ≤ info.toNat ∧ info.toNat ≤ 0xFF

/-- Fault entry with an info its cause can have keeps the invariant (60_exceptions.md R123). -/
theorem Inv.enterFault (hs : Inv s) {cause : FaultCause} {a info : Word} (ha : a.toNat ≤ 0x10FE)
    (hinfo : cause.InfoOk info) : Inv (s.enterFault cause a info) := by
  refine ⟨hs.memory, ha, hs.slotBound, ⟨fun h => absurd h.symm Bool.false_ne_true, fun _ => rfl, fun _ => ?_⟩⟩
  cases cause with
  | stackOverflow => exact Or.inl ⟨rfl, hinfo⟩
  | stackUnderflow => exact Or.inr (Or.inl ⟨rfl, hinfo⟩)
  | memoryAccess => exact Or.inr (Or.inr (Or.inl ⟨rfl, hinfo⟩))
  | keyIndex => exact Or.inr (Or.inr (Or.inr ⟨rfl, hinfo⟩))

/-- The lowest address out of range is above 0xFFF, whatever 16-bit address the access starts at. -/
theorem infoOk_memoryAccess (a : Word) : FaultCause.memoryAccess.InfoOk (BitVec.ofNat 16 (max a.toNat 0x1000)) := by
  have := a.isLt
  show 0x1000 ≤ (BitVec.ofNat 16 (max a.toNat 0x1000)).toNat
  rw [BitVec.toNat_ofNat]
  omega

theorem infoOk_keyIndex {k : Byte} (h : 16 ≤ k.toNat) : FaultCause.keyIndex.InfoOk (keyInfo k) := by
  have := k.isLt
  have hk : (keyInfo k).toNat = k.toNat := BitVec.toNat_setWidth_of_le (by decide)
  exact ⟨by omega, by omega⟩

/-! ### Addresses an instruction puts into pc -/

theorem toNat_addrOperand (nnn : Addr) : (addrOperand nnn).toNat = nnn.toNat :=
  BitVec.toNat_setWidth_of_le (by decide)

/-- The largest target of JP V0, nnn is 0xFFF + 0xFF, the bound of R21 (40_control_flow.md R84). -/
theorem toNat_offsetTarget_le (s : State) (nnn : Addr) : (s.offsetTarget nnn).toNat ≤ 0x10FE := by
  have h1 := nnn.isLt
  have h2 := (s.getV 0#4).isLt
  have h3 : ((s.getV 0#4).setWidth 16).toNat = (s.getV 0#4).toNat := BitVec.toNat_setWidth_of_le (by decide)
  rw [State.offsetTarget, BitVec.toNat_add, toNat_addrOperand, h3]
  omega

/-! ### Every instruction, on the state after fetch -/

/-- A state after fetch that meets the invariant: in RUN, with pc just past an instruction inside memory. -/
structure AfterFetch (s : State) : Prop where
  inv : Inv s
  running : s.faulted = false
  pcLow : 2 ≤ s.pc.toNat
  pcHigh : s.pc.toNat ≤ 0x1000

/-- The move past an instruction inside memory does not wrap (30_encoding.md R65). -/
theorem toNat_pc_add_two (h : s.pc.toNat ≤ 0xFFE) : (s.pc + 2#16).toNat = s.pc.toNat + 2 := by
  rw [BitVec.toNat_add_of_lt (by simp; omega)]
  rfl

theorem afterFetch_setPc (hs : Inv s) (hrun : s.faulted = false) (h : s.pc.toNat ≤ 0xFFE) :
    AfterFetch (s.setPc (s.pc + 2#16)) := by
  have hpc := toNat_pc_add_two h
  exact ⟨hs.setPc hrun (by omega), hrun, by rw [State.setPc_pc]; omega, by rw [State.setPc_pc]; omega⟩

theorem AfterFetch.toNat_pcI_le (hs : AfterFetch s) : (s.pc - 2#16).toNat ≤ 0x10FE := by
  have := hs.pcHigh
  rw [BitVec.toNat_sub_of_le (BitVec.le_def.2 (by simpa using hs.pcLow))]
  omega

theorem AfterFetch.inv_enterFault (hs : AfterFetch s) {cause : FaultCause} {info : Word} (h : cause.InfoOk info) :
    Inv (s.enterFault cause (s.pc - 2#16) info) :=
  hs.inv.enterFault hs.toNat_pcI_le h

theorem AfterFetch.inv_skipIf (hs : AfterFetch s) (c : Bool) : Inv (s.skipIf c) := by
  have := hs.pcHigh
  cases c with
  | false => exact hs.inv
  | true => exact hs.inv.setPc hs.running (by rw [BitVec.toNat_add]; simp; omega)

theorem AfterFetch.answers_withAccess (hs : AfterFetch s) {n : Nat}
    (ht : n = 0 ∨ s.i.toNat + n ≤ 0x1000 → Inv t) : Answers Inv (withAccess n s t) :=
  Machine.answers_withAccess ht fun _ => hs.inv_enterFault (infoOk_memoryAccess s.i)

/-- A store of bytes that all exist keeps memory canonical. -/
theorem AfterFetch.inv_writeBytes (hs : AfterFetch s) {bytes : List Byte}
    (h : bytes.length = 0 ∨ s.i.toNat + bytes.length ≤ 0x1000) :
    Inv (s.setMem (s.mem.writeBytes s.i.toNat bytes)) := by
  rcases h with h | h
  · rw [List.length_eq_zero_iff.1 h]
    exact hs.inv
  · exact hs.inv.setMem (Memory.wf_writeBytes hs.inv.memory h)

/-- Every instruction keeps the invariant, on the state after its fetch. -/
theorem exec_inv (hs : AfterFetch s) (i : Instr) : Answers Inv (exec i s) := by
  have hhigh := hs.pcHigh
  cases i with
  | ret hi =>
    exact answers_execRet (hs.inv.popPc hs.running) (hs.inv_enterFault (cause := .stackUnderflow) rfl)
  | call nnn =>
    refine answers_execCall (fun h => ?_) (hs.inv_enterFault (cause := .stackOverflow) rfl)
    have := nnn.isLt
    exact (hs.inv.pushPc hhigh h).setPc hs.running (by rw [toNat_addrOperand]; omega)
  | jp nnn =>
    have := nnn.isLt
    exact hs.inv.setPc hs.running (by rw [toNat_addrOperand]; omega)
  | jpV0Nnn nnn => exact hs.inv.setPc hs.running (toNat_offsetTarget_le s nnn)
  | seVxKk | sneVxKk | seVxVy | sneVxVy => exact hs.inv_skipIf _
  | skpVx x =>
    exact answers_execSkpVx hs.inv_skipIf fun h => hs.inv_enterFault (infoOk_keyIndex h)
  | sknpVx x =>
    exact answers_execSknpVx hs.inv_skipIf fun h => hs.inv_enterFault (infoOk_keyIndex h)
  | ldVxK x =>
    have hwait : Inv (s.setPc (s.pc - 2#16)) := hs.inv.setPc hs.running hs.toNat_pcI_le
    refine answers_execLdVxK (fun k => ?_) hwait
    rw [BitVec.sub_add_cancel]
    exact hs.inv.of_invView_eq rfl
  | ldBVx x =>
    exact hs.answers_withAccess fun h => hs.inv_writeBytes h
  | ldMemVx x =>
    refine hs.answers_withAccess fun h => (hs.inv_writeBytes (bytes := s.blockValues x) ?_).of_invView_eq rfl
    rwa [length_blockValues]
  | drw | ldVxMem => exact hs.answers_withAccess fun _ => hs.inv.of_invView_eq rfl
  | nop => exact hs.inv
  | cls | ldVxKk | addVxKk | ldVxVy | orVxVy | andVxVy | xorVxVy | addVxVy | subVxVy | shrVxVy | subnVxVy | shlVxVy
  | rndVxKk | ldINnn | addIVx | ldFVx | ldVxDt | ldDtVx | ldStVx => exact hs.inv.of_invView_eq rfl

theorem step_inv (hs : Inv s) : Answers Inv (step s) := by
  have hpc := hs.pcBound
  exact answers_step (fun _ => hs) (fun _ _ => hs.enterFault hpc (infoOk_memoryAccess s.pc))
    fun hrun h => exec_inv (afterFetch_setPc hs hrun h) _

end

/-- Settles O14: the rules above for each state operation, instruction by instruction, on the state after fetch. -/
theorem stepKeepsInvariant : Obligations.StepKeepsInvariant := by
  unfold Obligations.StepKeepsInvariant
  intro s t hs h
  exact (step_inv hs).of_eq_next h

/-- Settles O13: in the reset state nothing is written, and every slot and status field is 0. -/
theorem resetMeetsInvariant : Obligations.ResetMeetsInvariant := by
  unfold Obligations.ResetMeetsInvariant
  have hrun : State.reset.faulted ≠ true := Bool.false_ne_true
  refine ⟨Memory.wf_reset, by decide, fun j => ?_, ⟨fun _ => ⟨rfl, rfl, rfl⟩, (absurd · hrun), (absurd · hrun)⟩⟩
  simp [State.reset]

theorem applyOp_inv {op : HostOp} {s t : State} {answer : Response} (hs : Inv s)
    (h : applyOp op s = .next (t, answer)) : Inv t := by
  cases opEffect_of_applyOp h with
  | step h => exact stepKeepsInvariant s t hs h
  | loaded image hl => exact hs.setMem (Memory.wf_writeBytes hs.memory (by simp only [Config.memSize]; omega))
  | reset => exact resetMeetsInvariant.of_invView_eq rfl
  | tick | frameHandedOver | setKeys => exact hs.of_invView_eq rfl
  | frameUnchanged | loadRefused | read => exact hs

/-- A sequence that completes: its first operation completes, and the rest completes from the state that leaves. -/
theorem runOps_cons_eq_next {op : HostOp} {ops : List HostOp} {s u : State} {answers : List Response}
    (h : runOps (op :: ops) s = .next (u, answers)) :
    ∃ t r rs, applyOp op s = .next (t, r) ∧ runOps ops t = .next (u, rs) ∧ answers = r :: rs := by
  cases hop : applyOp op s with
  | next p =>
    obtain ⟨t, r⟩ := p
    cases hrest : runOps ops t with
    | next q =>
      obtain ⟨u', rs⟩ := q
      simp only [runOps, hop, hrest] at h
      cases h
      exact ⟨t, r, rs, rfl, hrest, rfl⟩
    | fault e | refused e => simp [runOps, hop, hrest] at h
  | fault e | refused e => simp [runOps, hop] at h

/-- Settles O15, by induction on the operations. -/
theorem hostRunsKeepInvariant : Obligations.HostRunsKeepInvariant := by
  unfold Obligations.HostRunsKeepInvariant
  intro ops
  induction ops with
  | nil =>
    intro s t answers hs h
    cases h
    exact hs
  | cons op ops ih =>
    intro s u answers hs h
    obtain ⟨t, r, rs, hop, hrest, -⟩ := runOps_cons_eq_next h
    exact ih t u rs (applyOp_inv hs hop) hrest

end Sys2Proof.Machine
end

section
/-! The frame of every instruction: which parts of the state it may write, and that it keeps all the others. -/

namespace Sys2Proof.Machine

/-- What any STEP may write: pc, and the fault status that fault entry records (60_exceptions.md R123). -/
def controlParts : List Part := [.pc, .faulted, .faultCode, .faultPc, .faultInfo]

/-- The further parts an instruction may write, from the state `s`. -/
def Writes (s : State) : Instr → Part → Prop
  | .call _, p => p = .sp ∨ ∃ j, p = .stack j
  | .ret _, p => p = .sp
  | .cls _, p => p = .redraw ∨ ∃ r c, p = .cell r c
  | .drw _ _ _, p => p = .v vf ∨ p = .redraw ∨ ∃ r c, p = .cell r c
  | .ldVxKk x _, p | .addVxKk x _, p | .ldVxDt x, p | .ldVxK x, p => p = .v x
  | .rndVxKk x _, p => p = .v x ∨ p = .draws
  | .ldVxVy x _, p | .orVxVy x _, p | .andVxVy x _, p | .xorVxVy x _, p | .addVxVy x _, p | .subVxVy x _, p
  | .shrVxVy x _, p | .subnVxVy x _, p | .shlVxVy x _, p => p = .v x ∨ p = .v vf
  | .ldINnn _, p | .addIVx _, p | .ldFVx _, p => p = .i
  | .ldBVx _, p => ∃ k, k < 3 ∧ p = .mem (s.i.toNat + k)
  | .ldMemVx x, p => p = .i ∨ ∃ k, k < x.toNat + 1 ∧ p = .mem (s.i.toNat + k)
  | .ldVxMem x, p => p = .i ∨ ∃ r : RegIdx, r.toNat ≤ x.toNat ∧ p = .v r
  | .ldDtVx _, p => p = .dt
  | .ldStVx _, p => p = .st
  | .jp _, _ | .jpV0Nnn _, _ | .seVxKk _ _, _ | .sneVxKk _ _, _ | .seVxVy _ _ _, _ | .sneVxVy _ _ _, _ | .skpVx _, _
  | .sknpVx _, _ | .nop _, _ => False

/-- From `s` to `t` only `written` and the control parts change. -/
def KeepsBut (written : Part → Prop) (s t : State) : Prop :=
  KeepsOutside (fun p => p ∈ controlParts ∨ written p) s t

section
variable {written : Part → Prop} {s t : State}

theorem keepsBut_of_keepsOutside (h : KeepsOutside written s t) : KeepsBut written s t :=
  h.mono fun _ => Or.inr

theorem keepsBut_of_keepsAllBut {parts : List Part} (h : KeepsAllBut parts s t)
    (hw : ∀ p, p ∈ parts → p ∈ controlParts ∨ written p) : KeepsBut written s t :=
  KeepsOutside.mono h hw

theorem keepsBut_enterFault (cause : FaultCause) (a info : Word) : KeepsBut written s (s.enterFault cause a info) := by
  obtain ⟨-, -, -, -, -, h⟩ := faultEntered_enterFault s cause a info
  refine keepsBut_of_keepsAllBut h fun p hp => Or.inl ?_
  simp only [List.mem_cons, List.not_mem_nil, or_false, controlParts] at hp ⊢
  tauto

theorem keepsBut_setPc (a : Word) : KeepsBut written s (s.setPc a) :=
  keepsBut_of_keepsAllBut (keeps_setPc s a) (by simp [controlParts])

theorem keepsBut_skipIf (c : Bool) : KeepsBut written s (s.skipIf c) :=
  keepsBut_of_keepsAllBut (keeps_skipIf s c) (by simp [controlParts])

end

/-- Every instruction keeps all parts but those it may write. -/
theorem exec_keeps (s : State) (i : Instr) : Answers (KeepsBut (Writes s i) s) (exec i s) := by
  cases i with
  | ret hi =>
    exact answers_execRet (fun h => keepsBut_of_keepsAllBut (keeps_popPc s h) (by simp [controlParts, Writes]))
      (keepsBut_enterFault _ _ _)
  | call nnn =>
    refine answers_execCall (fun h => ?_) (keepsBut_enterFault _ _ _)
    exact keepsBut_of_keepsAllBut ((keeps_pushPc s h).trans (keeps_setPc _ _)) (by simp [controlParts, Writes])
  | jp | jpV0Nnn => exact keepsBut_setPc _
  | seVxKk | sneVxKk | seVxVy | sneVxVy => exact keepsBut_skipIf _
  | skpVx x => exact answers_execSkpVx keepsBut_skipIf fun _ => keepsBut_enterFault _ _ _
  | sknpVx x => exact answers_execSknpVx keepsBut_skipIf fun _ => keepsBut_enterFault _ _ _
  | nop w => exact KeepsOutside.refl _ s
  | ldVxKk x | addVxKk x | ldVxDt x =>
    exact keepsBut_of_keepsAllBut (keeps_setV s x _) (by simp [Writes])
  | ldVxVy x | orVxVy x | andVxVy x | xorVxVy x | addVxVy x | subVxVy x | shrVxVy x | subnVxVy x | shlVxVy x =>
    exact keepsBut_of_keepsAllBut (keeps_setVThenFlag s x _ _) (by simp [Writes])
  | rndVxKk x kk =>
    exact keepsBut_of_keepsAllBut ((keeps_setV s x _).trans (keeps_countDraw _)) (by simp [Writes])
  | ldINnn | addIVx | ldFVx => exact keepsBut_of_keepsAllBut (keeps_setI s _) (by simp [Writes])
  | ldDtVx => exact keepsBut_of_keepsAllBut (keeps_setDt s _) (by simp [Writes])
  | ldStVx => exact keepsBut_of_keepsAllBut (keeps_setSt s _) (by simp [Writes])
  | cls hi => exact keepsBut_of_keepsOutside (keeps_setScreen s _)
  | drw x y n =>
    refine answers_withAccess (fun _ => ?_) fun _ => keepsBut_enterFault _ _ _
    exact KeepsOutside.trans (keepsBut_of_keepsAllBut (keeps_setV s vf _) (by simp [Writes]))
      ((keeps_setScreen _ _).mono fun p hp => Or.inr (Or.inr hp))
  | ldBVx x =>
    have hstore := keeps_setMem_writeBytes s s.i.toNat (bcdDigits (s.getV x))
    exact answers_withAccess (fun _ => keepsBut_of_keepsOutside hstore) fun _ => keepsBut_enterFault _ _ _
  | ldMemVx x =>
    refine answers_withAccess (fun _ => ?_) fun _ => keepsBut_enterFault _ _ _
    refine KeepsOutside.trans ((keeps_setMem_writeBytes s _ _).mono fun p hp => Or.inr (Or.inr ?_))
      (keepsBut_of_keepsAllBut (keeps_setI _ _) (by simp [Writes]))
    rwa [length_blockValues] at hp
  | ldVxMem x =>
    refine answers_withAccess (fun _ => ?_) fun _ => keepsBut_enterFault _ _ _
    exact KeepsOutside.trans ((keeps_blockLoaded s x).mono fun p hp => Or.inr (Or.inr hp))
      (keepsBut_of_keepsAllBut (keeps_setI _ _) (by simp [Writes]))
  | ldVxK x =>
    refine answers_execLdVxK (fun k => ?_) (keepsBut_setPc _)
    exact keepsBut_of_keepsAllBut (((keeps_setPc s _).trans (keeps_setV _ x _)).trans (keeps_setPc _ _))
      (by simp [controlParts, Writes])

/-! ### Who writes which part -/

section
variable {s : State} {i : Instr}

theorem writes_sp : Writes s i .sp ↔ (∃ nnn, i = .call nnn) ∨ ∃ hi, i = .ret hi := by
  cases i <;> simp [Writes]

theorem writes_stack {j : Fin 16} : Writes s i (.stack j) ↔ ∃ nnn, i = .call nnn := by
  cases i <;> simp [Writes]

theorem writes_cell {r : Fin 32} {c : Fin 64} :
    Writes s i (.cell r c) ↔ (∃ hi, i = .cls hi) ∨ ∃ x y n, i = .drw x y n := by
  cases i <;> simp [Writes]

theorem writes_redraw : Writes s i .redraw ↔ (∃ hi, i = .cls hi) ∨ ∃ x y n, i = .drw x y n := by
  cases i <;> simp [Writes]

theorem writes_i : Writes s i .i ↔
    (∃ nnn, i = .ldINnn nnn) ∨ ∃ x, i = .addIVx x ∨ i = .ldFVx x ∨ i = .ldMemVx x ∨ i = .ldVxMem x := by
  cases i <;> simp [Writes]

theorem writes_dt : Writes s i .dt ↔ ∃ x, i = .ldDtVx x := by
  cases i <;> simp [Writes]

theorem writes_st : Writes s i .st ↔ ∃ x, i = .ldStVx x := by
  cases i <;> simp [Writes]

theorem writes_setPc {a : Word} {p : Part} : Writes (s.setPc a) i p ↔ Writes s i p := by
  cases i <;> rfl

theorem not_writes_key {k : Fin 16} : ¬ Writes s i (.key k) := by
  cases i <;> simp [Writes]

end

/-- The instruction that STEP executes in RUN is the one whose word lies at pc (10_state.md R35). -/
theorem fetchesWord_decode {s : State} (hrun : s.faulted = false) (h : s.pc.toNat ≤ 0xFFE) :
    FetchesWord s (encode (decode (s.mem.readWord s.pc.toNat))) := by
  rw [Laws.encode_decode]
  exact fetchesWord_readWord hrun h

/-- A STEP that changes a part outside pc and the fault status executes an instruction that may write it. -/
theorem exists_writes_of_step_changes {s t : State} (h : step s = .next t) {p : Part} (hp : p ∉ controlParts)
    (hne : ¬ p.Same s t) : ∃ i, FetchesWord s (encode i) ∧ Writes s i p := by
  rcases step_cases s with ⟨-, hstep⟩ | ⟨-, -, hstep⟩ | ⟨hrun, hpc, hstep⟩ <;> rw [h] at hstep
  · cases hstep
    exact absurd (p.same_refl s) hne
  · cases hstep
    exact absurd (keepsBut_enterFault (written := fun _ => False) _ _ _ p (by simpa using hp)) hne
  · refine ⟨_, fetchesWord_decode hrun hpc, ?_⟩
    by_contra hw
    have hfetch : p.Same s (s.setPc (s.pc + 2#16)) :=
      keepsBut_setPc (written := fun _ => False) _ p (by simpa using hp)
    have hexec := (exec_keeps _ _).of_eq_next hstep.symm p (by simp [hp, writes_setPc, hw])
    exact hne (Part.same_trans hfetch hexec)

/-- Settles O16, from the frames: only CALL and RET may write SP, only CALL a slot. -/
theorem onlyCallAndRetMoveStack : Obligations.OnlyCallAndRetMoveStack := by
  unfold Obligations.OnlyCallAndRetMoveStack
  rintro s t h (hsp | ⟨j, hslot⟩)
  · obtain ⟨i, hi, hw⟩ := exists_writes_of_step_changes h (p := .sp) (by decide) hsp
    rcases writes_sp.1 hw with ⟨nnn, rfl⟩ | ⟨n, rfl⟩
    · exact Or.inl ⟨nnn, hi⟩
    · exact Or.inr ⟨n, hi⟩
  · obtain ⟨i, hi, hw⟩ := exists_writes_of_step_changes h (p := .stack j) (by simp [controlParts]) hslot
    obtain ⟨nnn, rfl⟩ := writes_stack.1 hw
    exact Or.inl ⟨nnn, hi⟩

/-- No instruction clears redraw (10_state.md R26). -/
theorem exec_redraw {s : State} (hr : s.redraw = true) (i : Instr) : Answers (fun t => t.redraw = true) (exec i s) := by
  obtain ⟨t, ht, hkeeps⟩ := answers_iff.1 (exec_keeps s i)
  by_cases hw : Writes s i .redraw
  · rcases writes_redraw.1 hw with ⟨hi, rfl⟩ | ⟨x, y, n, rfl⟩
    · exact rfl
    · exact answers_withAccess (fun _ => rfl) fun _ => hr
  · exact answers_iff.2 ⟨t, ht, (hkeeps .redraw (by simp [hw, controlParts])).trans hr⟩

/-- Settles O17, from the frames of cells and redraw, and `exec_redraw`. -/
theorem onlyDisplayWritesScreen : Obligations.OnlyDisplayWritesScreen := by
  unfold Obligations.OnlyDisplayWritesScreen
  intro s t h
  refine ⟨?_, fun hr => ?_⟩
  · rintro (⟨r, c, hcell⟩ | hredraw)
    · obtain ⟨i, hi, hw⟩ := exists_writes_of_step_changes h (p := .cell r c) (by simp [controlParts]) hcell
      rcases writes_cell.1 hw with ⟨n, rfl⟩ | ⟨x, y, n, rfl⟩
      · exact Or.inl ⟨n, hi⟩
      · exact Or.inr ⟨x, y, n, hi⟩
    · obtain ⟨i, hi, hw⟩ := exists_writes_of_step_changes h (p := .redraw) (by decide) hredraw
      rcases writes_redraw.1 hw with ⟨n, rfl⟩ | ⟨x, y, n, rfl⟩
      · exact Or.inl ⟨n, hi⟩
      · exact Or.inr ⟨x, y, n, hi⟩
  · exact (answers_step (P := fun t => t.redraw = true) (fun _ => hr) (fun _ _ => hr)
      fun _ _ => exec_redraw (s := s.setPc (s.pc + 2#16)) hr _).of_eq_next h

/-- Settles O19, from the frames of I, DT and ST. -/
theorem indexAndTimerWriters : Obligations.IndexAndTimerWriters := by
  unfold Obligations.IndexAndTimerWriters
  intro s t h
  refine ⟨fun hI => ?_, fun hdt => ?_, fun hst => ?_⟩
  · obtain ⟨i, hi, hw⟩ := exists_writes_of_step_changes h (p := .i) (by decide) hI
    rcases writes_i.1 hw with ⟨nnn, rfl⟩ | ⟨x, rfl | rfl | rfl | rfl⟩
    · exact Or.inl ⟨nnn, hi⟩
    · exact Or.inr ⟨x, Or.inl hi⟩
    · exact Or.inr ⟨x, Or.inr (Or.inl hi)⟩
    · exact Or.inr ⟨x, Or.inr (Or.inr (Or.inl hi))⟩
    · exact Or.inr ⟨x, Or.inr (Or.inr (Or.inr hi))⟩
  · obtain ⟨i, hi, hw⟩ := exists_writes_of_step_changes h (p := .dt) (by decide) hdt
    obtain ⟨x, rfl⟩ := writes_dt.1 hw
    exact ⟨x, hi⟩
  · obtain ⟨i, hi, hw⟩ := exists_writes_of_step_changes h (p := .st) (by decide) hst
    obtain ⟨x, rfl⟩ := writes_st.1 hw
    exact ⟨x, hi⟩

theorem step_key {s t : State} (h : step s = .next t) (k : Fin 16) : t.key[k] = s.key[k] := by
  by_contra hkey
  obtain ⟨i, -, hw⟩ := exists_writes_of_step_changes h (p := .key k) (by simp [controlParts]) hkey
  exact not_writes_key hw

theorem keeps_setKeys (s : State) (keys : Vector Bool 16) :
    KeepsOutside (fun p => ∃ k, p = .key k) s (setKeys keys s) := by
  intro p hp
  cases p with
  | key k => exact absurd ⟨k, rfl⟩ hp
  | _ => rfl

/-- Settles O20: no instruction may write a key, and of the host operations only two touch them. -/
theorem onlySetKeysWritesKeys : Obligations.OnlySetKeysWritesKeys := by
  unfold Obligations.OnlySetKeysWritesKeys
  refine ⟨fun s t h => step_key h, fun s keys => ⟨setKeys keys s, rfl, fun k => rfl, keeps_setKeys s keys⟩, ?_⟩
  intro op s t answer h hreset hset
  cases opEffect_of_applyOp h with
  | step h => exact step_key h
  | setKeys keys => exact absurd rfl (hset keys)
  | reset => exact absurd rfl hreset
  | tick | frameHandedOver | frameUnchanged | loaded | loadRefused | read => exact fun k => rfl

end Sys2Proof.Machine
end

section
/-! What a step does not read: the answer, seen through a change of the unread parts of the state, is the same. -/

namespace Sys2Proof.Machine

/-- A result with its next state passed through `f`. -/
def mapNext (f : State → State) : Result → Result
  | .next t => .next (f t)
  | .fault r => .fault r
  | .refused r => .refused r

theorem mapNext_eq_next {f : State → State} {r : Result} {u : State} (h : mapNext f r = .next u) :
    ∃ t, r = .next t ∧ f t = u := by
  cases r with
  | next t => exact ⟨t, rfl, Host.Outcome.next.inj h⟩
  | fault e | refused e => cases h

section
variable {s t t' u : State}

/-! ### ST, redraw and the fault registers (10_state.md R24, R26, R29) -/

/-- `s` with every part that no instruction reads at 0. -/
def State.eraseUnread (s : State) : State :=
  { s with st := 0#8, redraw := false, faultCode := 0#3, faultPc := 0#16, faultInfo := 0#16 }

theorem keeps_eraseUnread (s : State) :
    KeepsAllBut [.st, .redraw, .faultCode, .faultPc, .faultInfo] s s.eraseUnread := by
  intro p hp
  cases p with
  | st | redraw | faultCode | faultPc | faultInfo => exact absurd (by simp) hp
  | _ => rfl

theorem Part.same_symm {p : Part} (h : p.Same s t) : p.Same t s := by
  cases p <;> exact Eq.symm h

/-- States with the same erasure differ in the unread parts only. -/
theorem keeps_of_eraseUnread_eq (h : t.eraseUnread = t'.eraseUnread) :
    KeepsAllBut [.st, .redraw, .faultCode, .faultPc, .faultInfo] t t' := by
  have herased := keeps_eraseUnread t
  rw [h] at herased
  exact KeepsOutside.trans herased fun p hp => Part.same_symm (keeps_eraseUnread t' p hp)

/-- The two results are the same but for the unread parts. -/
def AgreeButUnread (r r' : Result) : Prop := mapNext State.eraseUnread r = mapNext State.eraseUnread r'

theorem agree_of_eq_next {r r' : Result} (hr : r = .next t) (hr' : r' = .next t')
    (h : t.eraseUnread = t'.eraseUnread) : AgreeButUnread r r' := by
  subst hr hr'
  exact congrArg Host.Outcome.next h

theorem eraseUnread_skipIf (s : State) (c : Bool) : (s.skipIf c).eraseUnread = (s.eraseUnread.skipIf c).eraseUnread := by
  cases c <;> rfl

theorem agree_withAccess {n : Nat} (ht : t.eraseUnread = t'.eraseUnread) :
    AgreeButUnread (withAccess n s t) (withAccess n s.eraseUnread t') := by
  rcases withAccess_cases n s t with ⟨hin, h⟩ | ⟨hn, hout, h⟩
  · exact agree_of_eq_next h (withAccess_inside hin) ht
  · exact agree_of_eq_next h (withAccess_outside (s := s.eraseUnread) hn hout) rfl

/-- No instruction reads ST, redraw or a fault register. -/
theorem exec_eraseUnread (i : Instr) (s : State) : AgreeButUnread (exec i s) (exec i s.eraseUnread) := by
  cases i with
  | ret hi =>
    by_cases h : 0 < s.sp.val
    · exact agree_of_eq_next (execRet_of_pos h) (execRet_of_pos (s := s.eraseUnread) h) rfl
    · have h0 : s.sp.val = 0 := by omega
      exact agree_of_eq_next (execRet_of_zero h0) (execRet_of_zero (s := s.eraseUnread) h0) rfl
  | call nnn =>
    by_cases h : s.sp.val < 16
    · exact agree_of_eq_next (execCall_of_lt h) (execCall_of_lt (s := s.eraseUnread) h) rfl
    · have h16 : s.sp.val = 16 := by omega
      exact agree_of_eq_next (execCall_of_full h16) (execCall_of_full (s := s.eraseUnread) h16) rfl
  | seVxKk | sneVxKk | seVxVy | sneVxVy => exact agree_of_eq_next rfl rfl (eraseUnread_skipIf s _)
  | skpVx x =>
    cases h : s.keyPressed (s.getV x) with
    | some b =>
      exact agree_of_eq_next (execSkpVx_of_some h) (execSkpVx_of_some (s := s.eraseUnread) h) (eraseUnread_skipIf s b)
    | none => exact agree_of_eq_next (execSkpVx_of_none h) (execSkpVx_of_none (s := s.eraseUnread) h) rfl
  | sknpVx x =>
    cases h : s.keyPressed (s.getV x) with
    | some b =>
      exact agree_of_eq_next (execSknpVx_of_some h) (execSknpVx_of_some (s := s.eraseUnread) h)
        (eraseUnread_skipIf s !b)
    | none => exact agree_of_eq_next (execSknpVx_of_none h) (execSknpVx_of_none (s := s.eraseUnread) h) rfl
  | ldVxK x =>
    cases h : s.firstKey with
    | some k => exact agree_of_eq_next (execLdVxK_of_some h) (execLdVxK_of_some (s := s.eraseUnread) h) rfl
    | none => exact agree_of_eq_next (execLdVxK_of_none h) (execLdVxK_of_none (s := s.eraseUnread) h) rfl
  | drw | ldBVx | ldMemVx | ldVxMem => exact agree_withAccess rfl
  | cls | jp | jpV0Nnn | nop | ldVxKk | addVxKk | ldVxVy | orVxVy | andVxVy | xorVxVy | addVxVy | subVxVy | shrVxVy
  | subnVxVy | shlVxVy | rndVxKk | ldINnn | addIVx | ldFVx | ldVxDt | ldDtVx | ldStVx => rfl

theorem step_eraseUnread (s : State) : AgreeButUnread (step s) (step s.eraseUnread) := by
  rcases step_cases s with ⟨hf, h⟩ | ⟨hrun, hpc, h⟩ | ⟨hrun, hpc, h⟩
  · exact agree_of_eq_next h (step_faulted (s := s.eraseUnread) hf) rfl
  · exact agree_of_eq_next h (step_outside (s := s.eraseUnread) hrun hpc) rfl
  · rw [h, step_inside (s := s.eraseUnread) hrun hpc]
    exact exec_eraseUnread _ (s.setPc (s.pc + 2#16))

/-! ### The keys (10_state.md R27) -/

/-- The instructions that read the keys (44_timers_input.md R111, R112, R114). -/
def ReadsKeys : Instr → Prop
  | .skpVx _ | .sknpVx _ | .ldVxK _ => True
  | _ => False

theorem setKeys_skipIf (keys : Vector Bool 16) (s : State) (c : Bool) :
    (setKeys keys s).skipIf c = setKeys keys (s.skipIf c) := by
  cases c <;> rfl

theorem withAccess_setKeys (keys : Vector Bool 16) {n : Nat} (ht : t' = setKeys keys t) :
    withAccess n (setKeys keys s) t' = mapNext (setKeys keys) (withAccess n s t) := by
  subst ht
  rcases withAccess_cases n s t with ⟨hin, h⟩ | ⟨hn, hout, h⟩ <;> rw [h]
  · exact withAccess_inside (s := setKeys keys s) hin
  · exact withAccess_outside (s := setKeys keys s) hn hout

/-- Any other instruction does the same whatever the keys are. -/
theorem exec_setKeys (keys : Vector Bool 16) {i : Instr} (hi : ¬ ReadsKeys i) (s : State) :
    exec i (setKeys keys s) = mapNext (setKeys keys) (exec i s) := by
  cases i with
  | skpVx | sknpVx | ldVxK => exact absurd trivial hi
  | ret n =>
    show execRet (setKeys keys s) = mapNext (setKeys keys) (execRet s)
    by_cases h : 0 < s.sp.val
    · rw [execRet_of_pos h]
      exact execRet_of_pos (s := setKeys keys s) h
    · have h0 : s.sp.val = 0 := by omega
      rw [execRet_of_zero h0]
      exact execRet_of_zero (s := setKeys keys s) h0
  | call nnn =>
    show execCall nnn (setKeys keys s) = mapNext (setKeys keys) (execCall nnn s)
    by_cases h : s.sp.val < 16
    · rw [execCall_of_lt h]
      exact execCall_of_lt (s := setKeys keys s) h
    · have h16 : s.sp.val = 16 := by omega
      rw [execCall_of_full h16]
      exact execCall_of_full (s := setKeys keys s) h16
  | seVxKk | sneVxKk | seVxVy | sneVxVy => exact congrArg Host.Outcome.next (setKeys_skipIf keys s _)
  | drw | ldBVx | ldMemVx | ldVxMem => exact withAccess_setKeys keys rfl
  | cls | jp | jpV0Nnn | nop | ldVxKk | addVxKk | ldVxVy | orVxVy | andVxVy | xorVxVy | addVxVy | subVxVy | shrVxVy
  | subnVxVy | shlVxVy | rndVxKk | ldINnn | addIVx | ldFVx | ldVxDt | ldDtVx | ldStVx => rfl

theorem step_setKeys (keys : Vector Bool 16) (h : ∀ i, FetchesWord s (encode i) → ¬ ReadsKeys i) :
    step (setKeys keys s) = mapNext (setKeys keys) (step s) := by
  rcases step_cases s with ⟨hf, hs⟩ | ⟨hrun, hpc, hs⟩ | ⟨hrun, hpc, hs⟩ <;> rw [hs]
  · exact step_faulted (s := setKeys keys s) hf
  · exact step_outside (s := setKeys keys s) hrun hpc
  · exact (step_inside (s := setKeys keys s) hrun hpc).trans
      (exec_setKeys keys (h _ (fetchesWord_decode hrun hpc)) (s.setPc (s.pc + 2#16)))

end

/-- Settles O21: both steps agree with the step from the state whose unread parts are erased. -/
theorem unreadStateNeverLeaks : Obligations.UnreadStateNeverLeaks := by
  unfold Obligations.UnreadStateNeverLeaks
  intro s t st redraw code faultPc info h
  have hagree := (step_eraseUnread s).trans (step_eraseUnread
    { s with st := st, redraw := redraw, faultCode := code, faultPc := faultPc, faultInfo := info }).symm
  rw [h] at hagree
  obtain ⟨t', ht', herase⟩ := mapNext_eq_next hagree.symm
  exact ⟨t', ht', keeps_of_eraseUnread_eq herase.symm⟩

/-- Settles O22: replacing the keys commutes with every step that does not read them. -/
theorem keysAreReadByThreeInstructions : Obligations.KeysAreReadByThreeInstructions := by
  unfold Obligations.KeysAreReadByThreeInstructions
  intro s t keys h hother
  have hreads : ∀ i, FetchesWord s (encode i) → ¬ ReadsKeys i := by
    intro i hi
    cases i with
    | skpVx x => exact absurd hi (hother x).1
    | sknpVx x => exact absurd hi (hother x).2.1
    | ldVxK x => exact absurd hi (hother x).2.2
    | _ => exact id
  have hstep := step_setKeys keys hreads
  rw [h] at hstep
  exact hstep

end Sys2Proof.Machine
end

section
/-! The host operations RESET, LOAD, EXPORT and READ, and STEP as the run of one decoded instruction. -/

namespace Sys2Proof.Machine

/-- Settles O8: the word at pc is the one the two bytes decode from. -/
theorem stepRunsDecodedInstruction : Obligations.StepRunsDecodedInstruction := by
  unfold Obligations.StepRunsDecodedInstruction
  intro s i hrun hpc hdecode
  have hi : decode (s.mem.readWord s.pc.toNat) = i := by
    simpa [decodeBytes, Memory.readWord] using hdecode
  subst hi
  exact ⟨Laws.wf_decode _, toNat_pc_add_two hpc, step_inside hrun hpc⟩

/-! ### RESET (10_state.md R43) -/

/-- An address inside the font holds the font's byte after reset. -/
theorem getElem?_fontData {a : Nat} (h : a < 0x50) : fontData[a]? = some (initialByte a) := by
  have ha : a < fontData.length := h
  rw [initialByte, List.getD_eq_getElem?_getD, List.getElem?_eq_getElem ha, Option.getD_some]

/-- Settles O23: RESET and the reset state differ in the count of random inputs only. -/
theorem resetLeavesTheListedValues : Obligations.ResetLeavesTheListedValues := by
  unfold Obligations.ResetLeavesTheListedValues
  intro s t ht
  have hreset : t = { State.reset with draws := t.draws } := by
    rcases ht with rfl | h
    · rfl
    · cases h
      rfl
  rw [hreset]
  refine ⟨rfl, fun x => ?_, rfl, rfl, fun j => ?_, rfl, rfl, fun r c => ?_, rfl, fun k => ?_, rfl, rfl, rfl, rfl, rfl,
    rfl, fun a => getElem?_fontData, fun a => initialByte_of_le⟩
  · simp [State.reset, State.getV]
  · simp [State.reset]
  · simp [State.reset, Screen.clear]
  · simp [State.reset]

/-! ### LOAD (10_state.md R39) -/

/-- Settles O26, by the laws of a block write inside the 4096 bytes. -/
theorem loadWritesImageVerbatim : Obligations.LoadWritesImageVerbatim := by
  unfold Obligations.LoadWritesImageVerbatim
  intro s image hwf
  refine ⟨fun hfits => ?_, fun hlong => by simp only [applyOp, load_of_gt hlong]⟩
  have hend : 0x200 + image.length ≤ Config.memSize := by simp only [Config.memSize]; omega
  refine ⟨_, by simp only [applyOp, load_of_le hfits], Memory.wf_writeBytes hwf hend, fun j hj => ?_,
    keeps_setMem_writeBytes s 0x200 image⟩
  rw [State.setMem_mem, Memory.read_writeBytes_inside hwf hend hj, List.getElem?_eq_getElem hj]

/-! ### EXPORT (10_state.md R37) -/

theorem Screen.cells_eq_flatten (fb : Screen) : fb.cells = (Vector.flatten fb).toList := by
  simp [Screen.cells, Vector.toList, Vector.flatten, List.flatMap, Function.comp_def]

theorem Screen.length_cells (fb : Screen) : fb.cells.length = 2048 := by
  rw [Screen.cells_eq_flatten, Vector.length_toList]

theorem Screen.getElem?_cells (fb : Screen) (r : Fin 32) (c : Fin 64) :
    fb.cells[r.val * 64 + c.val]? = some fb[r][c] := by
  have hr := r.isLt
  have hc := c.isLt
  have hlt : r.val * 64 + c.val < 32 * 64 := by omega
  have hdiv : (r.val * 64 + c.val) / 64 = r.val := by omega
  have hmod : (r.val * 64 + c.val) % 64 = c.val := by omega
  rw [Screen.cells_eq_flatten, Vector.getElem?_toList, Vector.getElem?_eq_getElem hlt, Vector.getElem_flatten]
  simp only [hdiv, hmod]
  rfl

theorem keeps_clearRedraw (s : State) : KeepsAllBut [.redraw] s { s with redraw := false } := by
  intro p hp
  cases p with
  | redraw => exact absurd (List.mem_singleton.2 rfl) hp
  | _ => rfl

/-- Settles O25. The cells in row order are the flattened rows, so cell (r, c) is at r * 64 + c. -/
theorem exportHandsOverCells : Obligations.ExportHandsOverCells := by
  unfold Obligations.ExportHandsOverCells
  refine fun s => ⟨fun hr => ?_, fun hr => by simp [applyOp, exportFrame, hr]⟩
  exact ⟨{ s with redraw := false }, s.fb.cells, by simp [applyOp, exportFrame, hr], s.fb.length_cells,
    s.fb.getElem?_cells, rfl, keeps_clearRedraw s⟩

/-! ### READ (10_state.md R41) -/

/-- Above the 4096 bytes a canonical memory lists nothing. -/
theorem Memory.read_of_ge {a : Nat} (ha : Config.memSize ≤ a) : ∀ {lo : Nat} {m : Memory}, m.wfFrom lo = true →
    m.read a = initialByte a
  | _, [], _ => rfl
  | _, (k, b) :: rest, hm => by
    simp only [Memory.wfFrom, Bool.and_eq_true, decide_eq_true_eq] at hm
    obtain ⟨⟨⟨-, hk⟩, -⟩, hrest⟩ := hm
    rw [Memory.read, if_neg (by omega)]
    exact Memory.read_of_ge ha hrest

/-- Canonical memories that agree on the 4096 bytes are equal. -/
theorem Memory.eq_of_read_addr {m m' : Memory} (hm : m.wf = true) (hm' : m'.wf = true)
    (h : ∀ a : Addr, m.read a.toNat = m'.read a.toNat) : m = m' := by
  refine Memory.eq_of_read hm hm' fun a => ?_
  by_cases ha : a < 4096
  · simpa [Nat.mod_eq_of_lt ha] using h (BitVec.ofNat 12 a)
  · have hge : Config.memSize ≤ a := Nat.le_of_not_lt ha
    rw [Memory.read_of_ge hge hm, Memory.read_of_ge hge hm']

theorem vector_eq_of_fin {α : Type} {n : Nat} {u w : Vector α n} (h : ∀ j : Fin n, u[j] = w[j]) : u = w :=
  Vector.ext fun j hj => h ⟨j, hj⟩

theorem bool_eq_of_toNat_eq : ∀ {a b : Bool}, a.toNat = b.toNat → a = b := by
  decide

/-- Two states of canonical memory that READ alike agree in all but the count of random inputs. -/
theorem eq_of_readState {s t : State} (hs : s.mem.wf = true) (ht : t.mem.wf = true) (hdraws : s.draws = t.draws)
    (h : ∀ sel, readState sel s = readState sel t) : s = t := by
  have hv : s.v = t.v := vector_eq_of_fin fun j => by
    simpa [readState, State.getV] using BitVec.eq_of_toNat_eq (h (.v (BitVec.ofFin j)))
  have hstack : s.stack = t.stack := vector_eq_of_fin fun j => BitVec.eq_of_toNat_eq (h (.stack j))
  have hfb : s.fb = t.fb :=
    vector_eq_of_fin fun r => vector_eq_of_fin fun c => bool_eq_of_toNat_eq (h (.fb r c))
  have hkey : s.key = t.key := vector_eq_of_fin fun k => bool_eq_of_toNat_eq (h (.key k))
  have hmem : s.mem = t.mem := Memory.eq_of_read_addr hs ht fun a => BitVec.eq_of_toNat_eq (h (.mem a))
  have hi : s.i = t.i := BitVec.eq_of_toNat_eq (h .i)
  have hpc : s.pc = t.pc := BitVec.eq_of_toNat_eq (h .pc)
  have hsp : s.sp = t.sp := Fin.ext (h .sp)
  have hdt : s.dt = t.dt := BitVec.eq_of_toNat_eq (h .dt)
  have hst : s.st = t.st := BitVec.eq_of_toNat_eq (h .st)
  have hredraw : s.redraw = t.redraw := bool_eq_of_toNat_eq (h .redraw)
  have hfaulted : s.faulted = t.faulted := bool_eq_of_toNat_eq (h .faulted)
  have hcode : s.faultCode = t.faultCode := BitVec.eq_of_toNat_eq (h .faultCode)
  have hfpc : s.faultPc = t.faultPc := BitVec.eq_of_toNat_eq (h .faultPc)
  have hinfo : s.faultInfo = t.faultInfo := BitVec.eq_of_toNat_eq (h .faultInfo)
  cases s
  cases t
  rw [State.mk.injEq]
  exact ⟨hv, hi, hpc, hsp, hstack, hdt, hst, hfb, hredraw, hkey, hmem, hfaulted, hcode, hfpc, hinfo, hdraws⟩

/-- Settles O27: each part of the state is the value of one READ, and the bytes of memory determine its list. -/
theorem readShowsAllState : Obligations.ReadShowsAllState := by
  unfold Obligations.ReadShowsAllState
  refine ⟨fun s sel => ⟨readState sel s, rfl⟩, fun s t hs ht hdraws h => ?_⟩
  refine eq_of_readState hs ht hdraws fun sel => ?_
  have hsel := h sel
  simp only [applyOp, Host.Outcome.next.injEq, Prod.mk.injEq, Response.value.injEq, true_and] at hsel
  exact hsel

end Sys2Proof.Machine
end

section
/-! The writers of memory: of the frames above only those of LD B, Vx and LD [I], Vx hold a byte, each within its block
from I (20_memory.md R50). -/

namespace Sys2Proof.Machine

theorem exists_mem_offset_iff {b n a : Nat} :
    (∃ k, k < n + 1 ∧ Part.mem a = .mem (b + k)) ↔ b ≤ a ∧ a ≤ b + n := by
  constructor
  · rintro ⟨k, hk, ha⟩
    cases ha
    omega
  · rintro ⟨hlow, hhigh⟩
    exact ⟨a - b, by omega, by rw [Nat.add_sub_cancel' hlow]⟩

/-- The bytes an instruction may write, as R50 lists them. -/
theorem writes_mem {s : State} {i : Instr} {a : Nat} : Writes s i (.mem a) ↔
    (∃ x, i = .ldBVx x ∧ s.i.toNat ≤ a ∧ a ≤ s.i.toNat + 2) ∨
    ∃ x, i = .ldMemVx x ∧ s.i.toNat ≤ a ∧ a ≤ s.i.toNat + x.toNat := by
  cases i with
  | ldBVx x => simpa [Writes] using exists_mem_offset_iff (n := 2)
  | ldMemVx x => simpa [Writes] using exists_mem_offset_iff (n := x.toNat)
  | _ => simp [Writes]

/-- Settles O18, from the frames: only the two stores may write a byte, and only one of their block. -/
theorem onlyStoresWriteMemory : Obligations.OnlyStoresWriteMemory := by
  unfold Obligations.OnlyStoresWriteMemory
  intro s t a h hbyte
  obtain ⟨i, hi, hw⟩ := exists_writes_of_step_changes h (p := .mem a) (by simp [controlParts]) hbyte
  rcases writes_mem.1 hw with ⟨x, rfl, hblock⟩ | ⟨x, rfl, hblock⟩
  · exact Or.inl ⟨x, hi, hblock⟩
  · exact Or.inr ⟨x, hi, hblock⟩

end Sys2Proof.Machine
end

section
/-! The decoder and the encoder (30_encoding.md R61 to R73): the numbers its fields read, the two round trips, the opcode
map as the round trip's table, and the no-op space. -/

namespace Sys2Proof.Laws

section
variable (w : Word)

/-! ### Fields as numbers (30_encoding.md R63) -/

theorem toNat_fieldClass : (fieldClass w).toNat = w.toNat / 4096 := by
  rw [fieldClass, BitVec.extractLsb'_toNat, Nat.shiftRight_eq_div_pow]
  omega

theorem toNat_fieldKk : (fieldKk w).toNat = w.toNat % 256 := BitVec.extractLsb'_toNat ..

theorem toNat_fieldN : (fieldN w).toNat = w.toNat % 16 := BitVec.extractLsb'_toNat ..

/-- Masking a word and shifting it down reads the field the mask covers. -/
theorem toNat_and_shiftRight {mask : Word} {k n : Nat} (hmask : mask.toNat >>> k = 2 ^ n - 1) :
    (w &&& mask).toNat >>> k = (w.extractLsb' k n).toNat := by
  rw [BitVec.toNat_and, Nat.shiftRight_and_distrib, hmask, Nat.and_two_pow_sub_one_eq_mod, BitVec.extractLsb'_toNat]

theorem toNat_fieldMsb : (fieldMsb w).toNat = (fieldClass w).toNat * 4096 := by
  have hclass : (fieldMsb w).toNat / 4096 = (fieldClass w).toNat :=
    (Nat.shiftRight_eq_div_pow _ 12).symm.trans (toNat_and_shiftRight w rfl)
  have hlow : (fieldMsb w).toNat % 4096 = 0 := by
    rw [fieldMsb, BitVec.toNat_and, Nat.and_mod_two_pow (n := 12)]
    exact Nat.and_zero _
  omega

end

/-- Settles O6: each field by the one rule for masking and shifting; the class is what is left above bit 11. -/
theorem fieldsAreMaskedBits : Obligations.FieldsAreMaskedBits := by
  unfold Obligations.FieldsAreMaskedBits
  intro w
  have hx := (fieldX w).isLt
  have hy := (fieldY w).isLt
  refine ⟨rfl, toNat_fieldMsb w, ?nnn, ?n, ?x, ?y, ?kk, by omega, by omega⟩
  case nnn | n | x | y | kk => exact (toNat_and_shiftRight w rfl).symm

/-! ### Two bytes, big-endian (30_encoding.md R61, 20_memory.md R47) -/

theorem toNat_wordOfBytes (first second : Byte) :
    (wordOfBytes first second).toNat = first.toNat * 256 + second.toNat := by
  rw [wordOfBytes, BitVec.toNat_append, ← Nat.shiftLeft_add_eq_or_of_lt second.isLt, Nat.shiftLeft_eq]

/-- Settles O7: the word of the first two bytes is decoded, and the rest comes back. -/
theorem decoderConsumesTwoBytes : Obligations.DecoderConsumesTwoBytes := by
  unfold Obligations.DecoderConsumesTwoBytes
  exact fun a b _ => ⟨wordOfBytes a b, toNat_wordOfBytes a b, rfl⟩

/-! ### The two round trips and the opcode map (30_encoding.md R72, R73) -/

/-- No bit of an encoding is dropped, one row of the map after the other. -/
theorem decode_encode (i : Instr) (hwf : i.wf = true) : decode (encode i) = i := by
  cases i with
  | cls hi => exact RoundTrip.cls hi hwf
  | ret hi => exact RoundTrip.ret hi hwf
  | jp nnn => exact RoundTrip.jp nnn hwf
  | call nnn => exact RoundTrip.call nnn hwf
  | seVxKk x kk => exact RoundTrip.seVxKk x kk hwf
  | sneVxKk x kk => exact RoundTrip.sneVxKk x kk hwf
  | seVxVy x y lo => exact RoundTrip.seVxVy x y lo hwf
  | ldVxKk x kk => exact RoundTrip.ldVxKk x kk hwf
  | addVxKk x kk => exact RoundTrip.addVxKk x kk hwf
  | ldVxVy x y => exact RoundTrip.ldVxVy x y hwf
  | orVxVy x y => exact RoundTrip.orVxVy x y hwf
  | andVxVy x y => exact RoundTrip.andVxVy x y hwf
  | xorVxVy x y => exact RoundTrip.xorVxVy x y hwf
  | addVxVy x y => exact RoundTrip.addVxVy x y hwf
  | subVxVy x y => exact RoundTrip.subVxVy x y hwf
  | shrVxVy x y => exact RoundTrip.shrVxVy x y hwf
  | subnVxVy x y => exact RoundTrip.subnVxVy x y hwf
  | shlVxVy x y => exact RoundTrip.shlVxVy x y hwf
  | sneVxVy x y lo => exact RoundTrip.sneVxVy x y lo hwf
  | ldINnn nnn => exact RoundTrip.ldINnn nnn hwf
  | jpV0Nnn nnn => exact RoundTrip.jpV0Nnn nnn hwf
  | rndVxKk x kk => exact RoundTrip.rndVxKk x kk hwf
  | drw x y n => exact RoundTrip.drw x y n hwf
  | skpVx x => exact RoundTrip.skpVx x hwf
  | sknpVx x => exact RoundTrip.sknpVx x hwf
  | ldVxDt x => exact RoundTrip.ldVxDt x hwf
  | ldVxK x => exact RoundTrip.ldVxK x hwf
  | ldDtVx x => exact RoundTrip.ldDtVx x hwf
  | ldStVx x => exact RoundTrip.ldStVx x hwf
  | addIVx x => exact RoundTrip.addIVx x hwf
  | ldFVx x => exact RoundTrip.ldFVx x hwf
  | ldBVx x => exact RoundTrip.ldBVx x hwf
  | ldMemVx x => exact RoundTrip.ldMemVx x hwf
  | ldVxMem x => exact RoundTrip.ldVxMem x hwf
  | nop w => exact RoundTrip.nop w hwf

/-- Settles O3, constructor by constructor. -/
theorem decodeEncodeRoundTrip : Obligations.DecodeEncodeRoundTrip := by
  unfold Obligations.DecodeEncodeRoundTrip
  exact decode_encode

/-- Settles O4, class by class of the decoder. -/
theorem encodeDecodeRoundTrip : Obligations.EncodeDecodeRoundTrip := by
  unfold Obligations.EncodeDecodeRoundTrip
  exact fun w => ⟨wf_decode w, encode_decode w⟩

/-- Settles O2: the word of each row is the encoding of its instruction, so the round trip decodes it. -/
theorem opcodeMapDecodes : Obligations.OpcodeMapDecodes := by
  unfold Obligations.OpcodeMapDecodes
  exact fun x y n kk nnn => ⟨
    decode_encode (.cls x) rfl, decode_encode (.ret x) rfl, decode_encode (.jp nnn) rfl,
    decode_encode (.call nnn) rfl, decode_encode (.seVxKk x kk) rfl, decode_encode (.sneVxKk x kk) rfl,
    decode_encode (.seVxVy x y n) rfl, decode_encode (.ldVxKk x kk) rfl, decode_encode (.addVxKk x kk) rfl,
    decode_encode (.ldVxVy x y) rfl, decode_encode (.orVxVy x y) rfl, decode_encode (.andVxVy x y) rfl,
    decode_encode (.xorVxVy x y) rfl, decode_encode (.addVxVy x y) rfl, decode_encode (.subVxVy x y) rfl,
    decode_encode (.shrVxVy x y) rfl, decode_encode (.subnVxVy x y) rfl, decode_encode (.shlVxVy x y) rfl,
    decode_encode (.sneVxVy x y n) rfl, decode_encode (.ldINnn nnn) rfl, decode_encode (.jpV0Nnn nnn) rfl,
    decode_encode (.rndVxKk x kk) rfl, decode_encode (.drw x y n) rfl, decode_encode (.skpVx x) rfl,
    decode_encode (.sknpVx x) rfl, decode_encode (.ldVxDt x) rfl, decode_encode (.ldVxK x) rfl,
    decode_encode (.ldDtVx x) rfl, decode_encode (.ldStVx x) rfl, decode_encode (.addIVx x) rfl,
    decode_encode (.ldFVx x) rfl, decode_encode (.ldBVx x) rfl, decode_encode (.ldMemVx x) rfl,
    decode_encode (.ldVxMem x) rfl⟩

/-- Settles O1, by running the decoder on the words listed. -/
theorem specWordsDecode : Obligations.SpecWordsDecode := by
  unfold Obligations.SpecWordsDecode
  decide

/-! ### The no-op space (30_encoding.md R73) -/

theorem decode_eq_nop_iff {w : Word} : decode w = .nop w ↔ isNopWord w = true := by
  constructor
  · intro h
    have hwf := wf_decode w
    rw [h] at hwf
    exact hwf
  · exact decode_encode (.nop w)

/-- Settles O5: a NOP is well-formed only with a word of the space, and the fields are the quotients listed. -/
theorem nopSpaceIsExact : Obligations.NopSpaceIsExact := by
  unfold Obligations.NopSpaceIsExact
  intro w
  rw [decode_eq_nop_iff, isNopWord_iff, toNat_fieldClass, toNat_fieldKk, toNat_fieldN]

end Sys2Proof.Laws
end

section
/-! A fetch beyond memory (30_encoding.md R65). -/

namespace Sys2Proof.Machine

/-- The lowest address at or above `a` that is out of range is `a` itself, or else 0x1000. -/
theorem ofNat_max_eq_ite (a : Word) :
    BitVec.ofNat 16 (max a.toNat 0x1000) = if 0xFFF < a.toNat then a else 0x1000#16 := by
  split
  · rw [Nat.max_eq_left (by omega), BitVec.ofNat_toNat, BitVec.setWidth_eq]
  · rw [Nat.max_eq_right (by omega)]

/-- Settles O9: STEP outside memory is the entry of that fault, at pc itself. -/
theorem fetchBeyondMemoryFaults : Obligations.FetchBeyondMemoryFaults := by
  unfold Obligations.FetchBeyondMemoryFaults
  intro s hrun hpc
  refine ⟨_, step_outside hrun hpc, ?_⟩
  rw [← ofNat_max_eq_ite]
  exact faultEntered_enterFault s .memoryAccess s.pc _

end Sys2Proof.Machine
end

section
/-! Control flow (40_control_flow.md R77 to R86): the call stack, the jumps, the skips and NOP. -/

namespace Sys2Proof.Machine

/-! ### RET and CALL -/

/-- Settles O28: the pop with an occupied slot, fault entry without one. -/
theorem retPopsOrUnderflows : Obligations.RetPopsOrUnderflows := by
  unfold Obligations.RetPopsOrUnderflows
  refine fun s hi => ⟨fun h => ?_, fun h => ?_⟩
  · exact ⟨s.popPc h, execRet_of_pos h, rfl, rfl, keeps_popPc s h⟩
  · exact ⟨_, execRet_of_zero h, faultEntered_enterFault s .stackUnderflow _ _⟩

/-- Settles O30: the push and the jump with a free slot, fault entry without one. -/
theorem callPushesOrOverflows : Obligations.CallPushesOrOverflows := by
  unfold Obligations.CallPushesOrOverflows
  refine fun s nnn => ⟨fun h => ?_, fun h => ?_⟩
  · exact ⟨_, execCall_of_lt h, Vector.getElem_set_self h, rfl, toNat_addrOperand nnn,
      (keeps_pushPc s h).trans (keeps_setPc _ _)⟩
  · exact ⟨_, execCall_of_full h, faultEntered_enterFault s .stackOverflow _ _⟩

/-- A pop with `n + 1` slots occupied gives the slot `n` as pc and leaves `n` occupied. -/
theorem popPc_of_sp_eq_succ {s : State} {n : Nat} (hsp : s.sp.val = n + 1) :
    (s.popPc (by omega)).sp.val = n ∧ (s.popPc (by omega)).pc = s.stack[n]'(by omega) := by
  simp [hsp]

/-- Settles O35: the slot the CALL wrote is the one the RET reads. -/
theorem retResumesAfterCall : Obligations.RetResumesAfterCall := by
  unfold Obligations.RetResumesAfterCall
  intro s t t' nnn hi h hcall hsp hslot
  obtain rfl : (s.pushPc h).setPc (addrOperand nnn) = t := Host.Outcome.next.inj ((execCall_of_lt h).symm.trans hcall)
  have hsp' : t'.sp.val = s.sp.val + 1 := congrArg Fin.val hsp
  obtain ⟨husp, hupc⟩ := popPc_of_sp_eq_succ hsp'
  exact ⟨_, execRet_of_pos (by omega), hupc.trans (hslot.trans (Vector.getElem_set_self h)), Fin.ext husp⟩

/-! ### Jumps -/

/-- Settles O29: the operand is the zero-extended address. -/
theorem jumpSetsPc : Obligations.JumpSetsPc := by
  unfold Obligations.JumpSetsPc
  exact fun s nnn => ⟨_, rfl, toNat_addrOperand nnn, keeps_setPc s _⟩

/-- The target of JP V0, nnn never wraps: 0xFFF + 0xFF fits 16 bits (40_control_flow.md R84). -/
theorem toNat_offsetTarget (s : State) (nnn : Addr) :
    (s.offsetTarget nnn).toNat = nnn.toNat + (s.getV 0#4).toNat := by
  have hnnn := nnn.isLt
  have hv := (s.getV 0#4).isLt
  have hext : ((s.getV 0#4).setWidth 16).toNat = (s.getV 0#4).toNat := BitVec.toNat_setWidth_of_le (by decide)
  rw [State.offsetTarget, BitVec.toNat_add, toNat_addrOperand, hext, Nat.mod_eq_of_lt (by omega)]

/-- Settles O33: the 16-bit sum of address and V0 never wraps. -/
theorem offsetJumpIsNotReduced : Obligations.OffsetJumpIsNotReduced := by
  unfold Obligations.OffsetJumpIsNotReduced
  exact fun s nnn => ⟨_, rfl, toNat_offsetTarget s nnn, keeps_setPc s _⟩

/-! ### Skips -/

/-- An instruction that ends in a skip on `c` advances pc by 2 when `c` holds, keeps pc when it does not, and keeps
everything else (40_control_flow.md R80 to R83). -/
theorem exists_next_skipIf {s : State} {r : Result} {c : Bool} {skips stays : Prop} (hr : r = .next (s.skipIf c))
    (hskips : skips → c = true) (hstays : stays → c = false) :
    ∃ t, r = .next t ∧ (skips → t.pc = s.pc + 2#16) ∧ (stays → t.pc = s.pc) ∧ KeepsAllBut [.pc] s t :=
  ⟨s.skipIf c, hr, fun h => by simp [hskips h], fun h => by simp [hstays h], keeps_skipIf s c⟩

/-- Settles O31, by what the two comparisons with the immediate say. -/
theorem immediateSkips : Obligations.ImmediateSkips := by
  unfold Obligations.ImmediateSkips
  exact fun s x kk => ⟨exists_next_skipIf rfl beq_iff_eq.2 beq_eq_false_iff_ne.2,
    exists_next_skipIf rfl bne_iff_ne.2 bne_eq_false_iff_eq.2⟩

/-- Settles O32, by what the two comparisons of registers say; the low nibble reaches no meaning. -/
theorem registerSkips : Obligations.RegisterSkips := by
  unfold Obligations.RegisterSkips
  exact fun s x y lo => ⟨exists_next_skipIf rfl beq_iff_eq.2 beq_eq_false_iff_ne.2,
    exists_next_skipIf rfl bne_iff_ne.2 bne_eq_false_iff_eq.2⟩

/-! ### NOP -/

/-- Settles O34: the decoder answers NOP on exactly this space, and the meaning of NOP is the state itself. -/
theorem nopChangesNothing : Obligations.NopChangesNothing := by
  unfold Obligations.NopChangesNothing
  exact fun s w hw => ⟨Laws.decode_eq_nop_iff.2 hw, rfl⟩

end Sys2Proof.Machine
end

section
/-! Arithmetic and logic (41_arithmetic_logic.md R87 to R100): loads, register pairs with their flag, and RND. -/

namespace Sys2Proof.Machine

/-! ### A result and a flag (41_arithmetic_logic.md R87) -/

/-- An instruction that ends in a result and a flag leaves the flag in VF, also where VF is the destination, and the
result in any other destination, and keeps everything else. -/
theorem exists_next_setVThenFlag {s : State} {r : Result} {x : RegIdx} {b flag : Byte}
    (hr : r = .next (s.setVThenFlag x b flag)) :
    ∃ t, r = .next t ∧ t.getV vf = flag ∧ (x ≠ vf → t.getV x = b) ∧ KeepsAllBut [.v x, .v vf] s t := by
  refine ⟨_, hr, ?_, fun hx => ?_, keeps_setVThenFlag s x b flag⟩
  · rw [State.getV_setVThenFlag, if_pos rfl]
  · rw [State.getV_setVThenFlag, if_neg hx, if_pos rfl]

/-! ### Flags and results as numbers -/

section
variable (a b : Byte)

theorem carryFlag_eq_ite : carryFlag a b = if 255 < a.toNat + b.toNat then 1#8 else 0#8 := by
  simp only [carryFlag, flagByte, decide_eq_true_eq]

theorem noBorrowFlag_eq_ite : noBorrowFlag a b = if b.toNat < a.toNat then 1#8 else 0#8 := by
  simp only [noBorrowFlag, flagByte, decide_eq_true_eq]

theorem toNat_lowBitFlag : (lowBitFlag a).toNat = a.toNat % 2 := by
  rw [lowBitFlag, BitVec.toNat_and]
  exact Nat.and_one_is_mod _

/-- Above bit 7 of a byte there is nothing, so the masked bit is the whole quotient. -/
theorem toNat_highBitFlag : (highBitFlag a).toNat = a.toNat / 128 := by
  have ha := a.isLt
  have hbit : (highBitFlag a).toNat = a.toNat / 128 % 2 := by
    rw [highBitFlag, BitVec.toNat_and, BitVec.toNat_ushiftRight, Nat.shiftRight_eq_div_pow]
    exact Nat.and_one_is_mod _
  omega

/-- A byte difference, as a number, is the integer difference modulo 256. -/
theorem cast_toNat_sub : ((a - b).toNat : Int) = (a.toNat - b.toNat : Int) % 256 := by
  have hb := b.isLt
  rw [BitVec.toNat_sub]
  omega

end

/-! ### Register pairs -/

/-- Settles O40: the result and flag rule, with the carry and the byte sum as numbers. -/
theorem addRegistersSetsCarry : Obligations.AddRegistersSetsCarry := by
  unfold Obligations.AddRegistersSetsCarry
  intro s x y
  obtain ⟨t, ht, hflag, hresult, hkeeps⟩ := exists_next_setVThenFlag (r := exec (.addVxVy x y) s) rfl
  refine ⟨t, ht, hflag.trans (carryFlag_eq_ite _ _), fun hx => ?_, hkeeps⟩
  rw [hresult hx, BitVec.toNat_add]

/-- A difference with its flag, whichever register is the minuend (41_arithmetic_logic.md R95, R97). -/
theorem exists_next_difference {s : State} {r : Result} {x : RegIdx} {minuend subtrahend : Byte}
    (hr : r = .next (s.setVThenFlag x (minuend - subtrahend) (noBorrowFlag minuend subtrahend))) :
    ∃ t, r = .next t ∧ t.getV vf = (if subtrahend.toNat < minuend.toNat then 1#8 else 0#8) ∧
      (x ≠ vf → ((t.getV x).toNat : Int) = (minuend.toNat - subtrahend.toNat : Int) % 256) ∧
      KeepsAllBut [.v x, .v vf] s t := by
  obtain ⟨t, ht, hflag, hresult, hkeeps⟩ := exists_next_setVThenFlag hr
  refine ⟨t, ht, hflag.trans (noBorrowFlag_eq_ite _ _), fun hx => ?_, hkeeps⟩
  rw [hresult hx, cast_toNat_sub]

/-- Settles O41: SUB and SUBN are one difference with the operands in either order. -/
theorem subtractionsSetStrictFlag : Obligations.SubtractionsSetStrictFlag := by
  unfold Obligations.SubtractionsSetStrictFlag
  exact fun s x y => ⟨exists_next_difference rfl, exists_next_difference rfl⟩

/-- Settles O42: the result and flag rule, with the shifts of Vy and the end bits of Vx as numbers. -/
theorem shiftsTakeSourceFromVy : Obligations.ShiftsTakeSourceFromVy := by
  unfold Obligations.ShiftsTakeSourceFromVy
  refine fun s x y => ⟨?shr, ?shl⟩
  case shr =>
    obtain ⟨t, ht, hflag, hresult, hkeeps⟩ := exists_next_setVThenFlag (r := exec (.shrVxVy x y) s) rfl
    refine ⟨t, ht, by rw [hflag, toNat_lowBitFlag], fun hx => ?_, hkeeps⟩
    rw [hresult hx, BitVec.toNat_ushiftRight, Nat.shiftRight_eq_div_pow, pow_one]
  case shl =>
    obtain ⟨t, ht, hflag, hresult, hkeeps⟩ := exists_next_setVThenFlag (r := exec (.shlVxVy x y) s) rfl
    refine ⟨t, ht, by rw [hflag, toNat_highBitFlag], fun hx => ?_, hkeeps⟩
    rw [hresult hx, BitVec.toNat_shiftLeft, Nat.shiftLeft_eq, pow_one]

/-- Settles O39: the four end in their result and the cleared flag. -/
theorem logicOpsClearVf : Obligations.LogicOpsClearVf := by
  unfold Obligations.LogicOpsClearVf
  exact fun s x y => ⟨exists_next_setVThenFlag rfl, exists_next_setVThenFlag rfl, exists_next_setVThenFlag rfl,
    exists_next_setVThenFlag rfl⟩

/-! ### One destination and no flag -/

/-- Settles O37, by the rule for one register written. -/
theorem loadImmediate : Obligations.LoadImmediate := by
  unfold Obligations.LoadImmediate
  exact fun s x kk => ⟨s.setV x kk, rfl, s.getV_setV_self x kk, keeps_setV s x kk⟩

/-- Settles O38: a byte sum wraps at 256, and one register is written. -/
theorem addImmediateWrapsWithoutFlag : Obligations.AddImmediateWrapsWithoutFlag := by
  unfold Obligations.AddImmediateWrapsWithoutFlag
  intro s x kk
  refine ⟨s.setV x (s.getV x + kk), rfl, ?_, keeps_setV s x _⟩
  rw [State.getV_setV_self, BitVec.toNat_add]

/-! ### The random input (41_arithmetic_logic.md R99) -/

theorem getV_rndWith (random : Byte) (x : RegIdx) (kk : Byte) (s : State) :
    (rndWith random x kk s).getV x = random &&& kk :=
  s.getV_setV_self x (random &&& kk)

theorem keeps_rndWith (random : Byte) (x : RegIdx) (kk : Byte) (s : State) :
    KeepsAllBut [.v x, .draws] s (rndWith random x kk s) :=
  (keeps_setV s x _).trans (keeps_countDraw _)

/-- Settles O43: whatever the input is, it is masked and counted, and the mask 0 clears every bit of it. -/
theorem randomIsMaskedFreshInput : Obligations.RandomIsMaskedFreshInput := by
  unfold Obligations.RandomIsMaskedFreshInput
  intro s x kk
  refine ⟨rndWith (Config.randomByte s.draws) x kk s, rfl, getV_rndWith _ x kk s, rfl, fun hkk => ?_,
    keeps_rndWith _ x kk s⟩
  rw [getV_rndWith, hkk, BitVec.and_zero]

end Sys2Proof.Machine
end

section
/-! Index register and memory (42_index_memory.md R101 to R107): the writers of I, then the three memory instructions,
each by what it answers on both sides of its bounds check. -/

namespace Sys2Proof.Machine

/-! ### The index register -/

/-- Settles O44: the operand is the zero-extended address. -/
theorem loadIndex : Obligations.LoadIndex := by
  unfold Obligations.LoadIndex
  exact fun s nnn => ⟨_, rfl, toNat_addrOperand nnn, keeps_setI s _⟩

theorem toNat_indexPlus (s : State) (x : RegIdx) :
    (s.indexPlus x).toNat = (s.i.toNat + (s.getV x).toNat) % 65536 := by
  rw [State.indexPlus, BitVec.toNat_add, BitVec.toNat_setWidth_of_le (by decide)]

/-- Settles O45: the 16-bit sum as a number, and only I is written. -/
theorem addIndexWrapsWithoutFlag : Obligations.AddIndexWrapsWithoutFlag := by
  unfold Obligations.AddIndexWrapsWithoutFlag
  exact fun s x => ⟨_, rfl, toNat_indexPlus s x, keeps_setI s _⟩

/-- A font address never wraps: 0xFF * 5 fits 16 bits (42_index_memory.md R103). -/
theorem toNat_fontAddress (digit : Byte) : (fontAddress digit).toNat = digit.toNat * 5 := by
  have hdigit := digit.isLt
  rw [fontAddress, BitVec.toNat_ofNat, Nat.mod_eq_of_lt (by omega)]

/-- Settles O46: the product is below 65536 for every byte, also above 0xF. -/
theorem fontAddressIsFiveTimes : Obligations.FontAddressIsFiveTimes := by
  unfold Obligations.FontAddressIsFiveTimes
  exact fun s x => ⟨_, rfl, toNat_fontAddress (s.getV x), keeps_setI s _⟩

/-! ### The two sides of the bounds check (42_index_memory.md R107) -/

section
variable {s t : State} {n : Nat}

/-- With I + n in memory, the access to the n + 1 bytes from I goes through. -/
theorem withAccess_succ_inside (h : s.i.toNat + n ≤ 0xFFF) : withAccess (n + 1) s t = .next t :=
  withAccess_inside (Or.inr (by omega))

/-- With I + n above 0xFFF, it enters MemoryAccessFault at the lowest such address, whatever it would have done. -/
theorem exists_next_faultEntered {r : Result} (hr : r = withAccess (n + 1) s t) (h : 0xFFF < s.i.toNat + n) :
    ∃ u, r = .next u ∧ FaultEntered 3#3 (s.pc - 2#16) (BitVec.ofNat 16 (max s.i.toNat 0x1000)) s u :=
  ⟨_, hr.trans (withAccess_outside n.succ_pos (by omega)), faultEntered_enterFault s .memoryAccess _ _⟩

/-- Moving I after a transfer adds I to what the transfer changes. -/
theorem KeepsOutside.setI {written : Part → Prop} (h : KeepsOutside written s t) (a : Word) :
    KeepsOutside (fun p => p = .i ∨ written p) s (t.setI a) :=
  (h.mono fun _ => Or.inr).trans (KeepsOutside.mono (keeps_setI t a) fun _ hp => Or.inl (List.mem_singleton.1 hp))

end

/-! ### LD B, Vx -/

/-- Each digit is below 10, so its byte is the digit itself. -/
theorem map_toNat_bcdDigits (b : Byte) :
    (bcdDigits b).map BitVec.toNat = [b.toNat / 100, b.toNat / 10 % 10, b.toNat % 10] := by
  have hb := b.isLt
  simp only [bcdDigits, List.map_cons, List.map_nil, BitVec.toNat_ofNat, List.cons.injEq, and_true]
  omega

/-- The number at offset `k` after the digits are stored. -/
theorem toNat_read_bcdStored {m : Memory} {a k : Nat} (hm : m.wf = true) (ha : a + 2 ≤ 0xFFF) (b : Byte)
    (hk : k < 3) :
    ((m.writeBytes a (bcdDigits b)).read (a + k)).toNat = [b.toNat / 100, b.toNat / 10 % 10, b.toNat % 10][k] := by
  rw [Memory.read_writeBytes_inside hm (by simp only [length_bcdDigits, Config.memSize]; omega) hk]
  simp only [← map_toNat_bcdDigits]
  exact (List.getElem_map _).symm

theorem keeps_bcdStored (s : State) (a : Nat) (b : Byte) :
    KeepsAllBut [.mem a, .mem (a + 1), .mem (a + 2)] s (s.setMem (s.mem.writeBytes a (bcdDigits b))) := by
  refine (keeps_setMem_writeBytes s a (bcdDigits b)).mono ?_
  rintro _ ⟨k, hk, rfl⟩
  rw [length_bcdDigits] at hk
  interval_cases k <;> simp

/-- Settles O47: inside memory the block write of the digits, outside it fault entry. -/
theorem bcdStoresThreeDigits : Obligations.BcdStoresThreeDigits := by
  unfold Obligations.BcdStoresThreeDigits
  refine fun s x => ⟨fun h => ?_, exists_next_faultEntered rfl⟩
  refine ⟨_, withAccess_succ_inside h, fun hm => ⟨?_, ?_, ?_, ?_⟩, keeps_bcdStored s _ _⟩
  · exact Memory.wf_writeBytes hm (by simp only [length_bcdDigits, Config.memSize]; omega)
  · exact toNat_read_bcdStored (k := 0) hm h _ (by decide)
  · exact toNat_read_bcdStored (k := 1) hm h _ (by decide)
  · exact toNat_read_bcdStored (k := 2) hm h _ (by decide)

/-! ### LD [I], Vx and LD Vx, [I] -/

section
variable {s : State} {x : RegIdx}

theorem execLdMemVx_inside (h : s.i.toNat + x.toNat ≤ 0xFFF) : execLdMemVx x s =
    .next ((s.setMem (s.mem.writeBytes s.i.toNat (s.blockValues x))).setI (s.indexPastBlock x)) :=
  withAccess_succ_inside h

theorem execLdVxMem_inside (h : s.i.toNat + x.toNat ≤ 0xFFF) :
    execLdVxMem x s = .next ((s.setRegs (s.blockLoaded x)).setI (s.indexPastBlock x)) :=
  withAccess_succ_inside h

end

theorem keeps_blockStored (s : State) (x : RegIdx) :
    KeepsOutside (fun p => ∃ k, k ≤ x.toNat ∧ p = .mem (s.i.toNat + k)) s
      (s.setMem (s.mem.writeBytes s.i.toNat (s.blockValues x))) := by
  refine (keeps_setMem_writeBytes s _ _).mono ?_
  rintro p ⟨k, hk, hp⟩
  rw [length_blockValues] at hk
  exact ⟨k, Nat.le_of_lt_succ hk, hp⟩

/-- Settles O48: inside memory the block write of the registers, outside it fault entry. -/
theorem storeRegistersBlock : Obligations.StoreRegistersBlock := by
  unfold Obligations.StoreRegistersBlock
  refine fun s x => ⟨fun h => ?_, exists_next_faultEntered rfl⟩
  refine ⟨_, execLdMemVx_inside h, fun hm => ⟨?_, fun r => read_blockStored hm h⟩, toNat_indexPastBlock s x,
    (keeps_blockStored s x).setI _⟩
  exact Memory.wf_writeBytes hm (by simp only [length_blockValues, Config.memSize]; omega)

/-- Settles O49: inside memory the block load of the registers, outside it fault entry. -/
theorem loadRegistersBlock : Obligations.LoadRegistersBlock := by
  unfold Obligations.LoadRegistersBlock
  refine fun s x => ⟨fun h => ?_, exists_next_faultEntered rfl⟩
  exact ⟨_, execLdVxMem_inside h, fun r hr => (getV_blockLoaded s x r).trans (if_pos hr), toNat_indexPastBlock s x,
    (keeps_blockLoaded s x).setI _⟩

/-- Settles O50: the load reads, from the same I, the bytes that the store wrote. -/
theorem storeThenLoadRestoresRegisters : Obligations.StoreThenLoadRestoresRegisters := by
  unfold Obligations.StoreThenLoadRestoresRegisters
  intro s t t' x hm h hstore hmem hi
  obtain rfl := Host.Outcome.next.inj ((execLdMemVx_inside h).symm.trans hstore)
  refine ⟨_, execLdVxMem_inside (hi ▸ h), fun r hr => ?restored, fun r hr => ?kept, ?index⟩
  case restored =>
    calc (t'.setRegs (t'.blockLoaded x)).getV r
      _ = t'.mem.read (t'.i.toNat + r.toNat) := (getV_blockLoaded t' x r).trans (if_pos hr)
      _ = (s.mem.writeBytes s.i.toNat (s.blockValues x)).read (s.i.toNat + r.toNat) := by rw [hmem, hi]; rfl
      _ = s.getV r := read_blockStored hm h hr
  case kept => exact (getV_blockLoaded t' x r).trans (if_neg (Nat.not_le_of_lt hr))
  case index => exact congrArg (· + BitVec.ofNat 16 (blockLength x)) hi

end Sys2Proof.Machine
end

section
/-! Display (43_display.md R108 to R110): CLS, and DRW through the one state that an unfaulted draw leaves. -/

namespace Sys2Proof.Machine

/-! ### CLS -/

theorem Screen.getElem_clear (r : Fin 32) (c : Fin 64) : Screen.clear[r][c] = false :=
  (Screen.get_eq Screen.clear r c).symm.trans (Screen.get_clear r.val c.val)

/-- Settles O51: the frame buffer written is the clear one. -/
theorem clearScreen : Obligations.ClearScreen := by
  unfold Obligations.ClearScreen
  exact fun s _ => ⟨s.setScreen Screen.clear, rfl, Screen.getElem_clear, rfl, keeps_setScreen s _⟩

/-! ### DRW -/

/-- What DRW leaves when all its rows are in memory: the collision in VF, and the sprite on the frame buffer. -/
def State.afterDraw (s : State) (x y : RegIdx) (n : Nibble) : State :=
  (s.setV vf (collisionFlag (s.drawn x y n).2)).setScreen (s.drawn x y n).1

section
variable {s : State} {x y : RegIdx} {n : Nibble}

theorem exec_drw_inside (h : n = 0#4 ∨ s.i.toNat + n.toNat ≤ 0x1000) :
    exec (.drw x y n) s = .next (s.afterDraw x y n) :=
  withAccess_inside (h.imp_left (congrArg BitVec.toNat))

theorem exec_drw_outside (hn : n ≠ 0#4) (h : 0x1000 < s.i.toNat + n.toNat) : exec (.drw x y n) s =
    .next (s.enterFault .memoryAccess (s.pc - 2#16) (BitVec.ofNat 16 (max s.i.toNat 0x1000))) :=
  withAccess_outside (Nat.pos_of_ne_zero fun h0 => hn (BitVec.eq_of_toNat_eq h0)) h

theorem fb_afterDraw (r : Fin 32) (c : Fin 64) :
    (s.afterDraw x y n).fb[r][c] = (s.fb[r][c] ^^ spriteCovers s x y n r c) :=
  drawn_cell s x y n r c

/-- A lit cell that is covered makes VF 1. -/
theorem getV_vf_afterDraw_of_collision
    (h : ∃ (r : Fin 32) (c : Fin 64), s.fb[r][c] = true ∧ spriteCovers s x y n r c = true) :
    (s.afterDraw x y n).getV vf = 1#8 := by
  have hhit : (s.drawn x y n).2 = true := (drawn_collision s x y n).2 h
  rw [State.afterDraw, State.getV_setScreen, State.getV_setV_self, hhit]
  rfl

/-- With every covered cell dark, VF is 0. -/
theorem getV_vf_afterDraw_of_dark
    (h : ∀ (r : Fin 32) (c : Fin 64), spriteCovers s x y n r c = true → s.fb[r][c] = false) :
    (s.afterDraw x y n).getV vf = 0#8 := by
  have hmiss : (s.drawn x y n).2 = false := by
    refine Bool.eq_false_iff.2 fun hhit => ?_
    obtain ⟨r, c, hlit, hcov⟩ := (drawn_collision s x y n).1 hhit
    exact Bool.false_ne_true ((h r c hcov).symm.trans hlit)
  rw [State.afterDraw, State.getV_setScreen, State.getV_setV_self, hmiss]
  rfl

theorem keeps_afterDraw :
    KeepsOutside (fun p => p = .v vf ∨ p = .redraw ∨ ∃ r c, p = .cell r c) s (s.afterDraw x y n) :=
  (KeepsOutside.mono (keeps_setV s vf _) fun _ hp => Or.inl (List.mem_singleton.1 hp)).trans
    ((keeps_setScreen _ _).mono fun _ => Or.inr)

/-- A sprite whose coordinates are not in VF covers the same cells after it is drawn. -/
theorem spriteCovers_afterDraw (hx : x ≠ vf) (hy : y ≠ vf) (r : Fin 32) (c : Fin 64) :
    spriteCovers (s.afterDraw x y n) x y n r c = spriteCovers s x y n r c := by
  have hkeep : ∀ z : RegIdx, z ≠ vf → (s.afterDraw x y n).getV z = s.getV z :=
    fun z hz => keeps_afterDraw (.v z) (by simp [hz])
  simp only [spriteCovers, hkeep x hx, hkeep y hy]
  rfl

end

/-- Settles O52: the sprite's cells are toggled, so a lit cell is turned off exactly where one is covered. -/
theorem drawTogglesClipsAndCollides : Obligations.DrawTogglesClipsAndCollides := by
  unfold Obligations.DrawTogglesClipsAndCollides
  refine fun s x y n => ⟨fun h => ?drawn, fun hn h => ?fault⟩
  case drawn =>
    refine ⟨_, exec_drw_inside h, fb_afterDraw, ?_, ?_, rfl, keeps_afterDraw⟩
    · rintro ⟨r, c, hlit, hoff⟩
      rw [fb_afterDraw, hlit, Bool.true_xor, Bool.not_eq_false'] at hoff
      exact getV_vf_afterDraw_of_collision ⟨r, c, hlit, hoff⟩
    · intro hstays
      refine getV_vf_afterDraw_of_dark fun r c hcov => Bool.eq_false_iff.2 fun hlit => ?_
      have hlit' := hstays r c hlit
      rw [fb_afterDraw, hlit, hcov] at hlit'
      exact Bool.false_ne_true hlit'
  case fault => exact ⟨_, exec_drw_outside hn h, faultEntered_enterFault s .memoryAccess _ _⟩

/-- Settles O53: both draws cover the same cells, so the toggles cancel, and a covered cell is lit at the second draw
exactly when it was dark at the first. -/
theorem drawTwiceRestoresScreen : Obligations.DrawTwiceRestoresScreen := by
  unfold Obligations.DrawTwiceRestoresScreen
  intro s t u x y n hx hy h hfirst hsecond
  obtain rfl : s.afterDraw x y n = t := Host.Outcome.next.inj ((exec_drw_inside h).symm.trans hfirst)
  obtain rfl : (s.afterDraw x y n).afterDraw x y n = u :=
    Host.Outcome.next.inj ((exec_drw_inside (s := s.afterDraw x y n) h).symm.trans hsecond)
  have hcov : ∀ (r : Fin 32) (c : Fin 64),
      spriteCovers (s.afterDraw x y n) x y n r c = spriteCovers s x y n r c := spriteCovers_afterDraw hx hy
  refine ⟨fun r c => ?_, ?_, fun hlit => ?_⟩
  · rw [fb_afterDraw, fb_afterDraw, hcov, Bool.xor_assoc, Bool.xor_self, Bool.xor_false]
  · rintro ⟨r, c, hc, hdark⟩
    exact getV_vf_afterDraw_of_collision ⟨r, c, by rw [fb_afterDraw, hdark, hc]; rfl, (hcov r c).trans hc⟩
  · refine getV_vf_afterDraw_of_dark fun r c hc => ?_
    rw [hcov] at hc
    rw [fb_afterDraw, hlit r c hc, hc]
    rfl

end Sys2Proof.Machine
end

section
/-! Timers and key input (44_timers_input.md R111 to R116): the wait for a key, the key skips, and the timer loads. -/

namespace Sys2Proof.Machine

/-! ### LD Vx, K -/

/-- Going back by 2 and past the instruction again leaves pc where fetch put it, so a found key is all that LD Vx, K
writes. -/
theorem execLdVxK_of_firstKey {s : State} {x : RegIdx} {k : Nat} (h : s.firstKey = some k) :
    execLdVxK x s = .next (s.setV x (BitVec.ofNat 8 k)) := by
  rw [execLdVxK_of_some h, BitVec.sub_add_cancel]
  rfl

/-- Settles O56, by what the scan of keys 0x0 to 0xE answers in the two cases. -/
theorem waitKeyTakesLowestOrRepeats : Obligations.WaitKeyTakesLowestOrRepeats := by
  unfold Obligations.WaitKeyTakesLowestOrRepeats
  refine fun s x => ⟨fun k hk hlow => ?pressed, fun hnone => ?waiting⟩
  case pressed =>
    refine ⟨_, execLdVxK_of_firstKey (firstKey_eq_some hk hlow), ?_, keeps_setV s x _⟩
    have hk15 := k.isLt
    rw [State.getV_setV_self, BitVec.toNat_ofNat, Nat.mod_eq_of_lt (by omega)]
  case waiting => exact ⟨_, execLdVxK_of_none (firstKey_eq_none.2 hnone), rfl, keeps_setPc s _⟩

/-! ### SKP and SKNP -/

/-- A skip on the negated condition exchanges the two values of pc. -/
theorem State.skipIf_not_pc (s : State) (c : Bool) : (s.skipIf !c).pc = if c then s.pc else s.pc + 2#16 := by
  rw [State.skipIf_pc]
  cases c <;> rfl

/-- An instruction that raises KeyIndexFault for the key index `k` enters it with that index as a number
(60_exceptions.md R121). -/
theorem exists_next_keyIndexFault {s : State} {r : Result} {k : Byte}
    (hr : r = .next (s.enterFault .keyIndex (s.pc - 2#16) (keyInfo k))) :
    ∃ t, r = .next t ∧ FaultEntered 4#3 (s.pc - 2#16) (BitVec.ofNat 16 k.toNat) s t := by
  rw [BitVec.ofNat_toNat]
  exact ⟨_, hr, faultEntered_enterFault s .keyIndex _ _⟩

/-- Settles O54: the key read answers the key's state up to 0xF and nothing above, where the fault is entered. -/
theorem keySkips : Obligations.KeySkips := by
  unfold Obligations.KeySkips
  refine fun s x => ⟨fun h => ?skips, fun h => ?faults⟩
  case skips =>
    have hkey := keyPressed_of_lt (s := s) h
    exact ⟨⟨_, execSkpVx_of_some hkey, s.skipIf_pc _, keeps_skipIf s _⟩,
      ⟨_, execSknpVx_of_some hkey, s.skipIf_not_pc _, keeps_skipIf s _⟩⟩
  case faults =>
    have hkey := keyPressed_of_le (s := s) h
    exact ⟨exists_next_keyIndexFault (execSkpVx_of_none hkey), exists_next_keyIndexFault (execSknpVx_of_none hkey)⟩

/-! ### The timer loads -/

/-- Settles O55, by the rule for one register written. -/
theorem readDelayTimer : Obligations.ReadDelayTimer := by
  unfold Obligations.ReadDelayTimer
  exact fun s x => ⟨s.setV x s.dt, rfl, s.getV_setV_self x s.dt, keeps_setV s x s.dt⟩

/-- Settles O57, by the rules for one timer written. -/
theorem setTimers : Obligations.SetTimers := by
  unfold Obligations.SetTimers
  exact fun s x => ⟨⟨_, rfl, s.setDt_dt (s.getV x), keeps_setDt s _⟩, ⟨_, rfl, s.setSt_st (s.getV x), keeps_setSt s _⟩⟩

end Sys2Proof.Machine
end

section
/-! Exceptions (60_exceptions.md): every step answers a state, which faults it can enter, what FAULTED allows, and the
timers' countdown. -/

namespace Sys2Proof.Machine

/-! ### No word is illegal (30_encoding.md R73) -/

theorem exists_exec_eq_next (i : Instr) (s : State) : ∃ t, exec i s = .next t := by
  obtain ⟨t, ht, -⟩ := answers_iff.1 (exec_keeps s i)
  exact ⟨t, ht⟩

/-- Settles O11: the frame of an instruction is already the frame of a state it answers, and STEP answers by an
instruction, by fault entry, or with its own state. -/
theorem everyStepAnswersNext : Obligations.EveryStepAnswersNext := by
  unfold Obligations.EveryStepAnswersNext
  refine ⟨fun s => ?_, exists_exec_eq_next⟩
  rcases step_cases s with ⟨-, h⟩ | ⟨-, -, h⟩ | ⟨-, -, h⟩
  · exact ⟨_, h⟩
  · exact ⟨_, h⟩
  · rw [h]
    exact exists_exec_eq_next _ _

/-! ### The fault table (60_exceptions.md R117) -/

/-- From the state `s` after fetch, the instruction faults with this cause and info: a constructor for each row of the
table and each instruction it names. The fetch fault, which belongs to no instruction, is not among them. -/
inductive Raises (s : State) : Instr → FaultCause → Word → Prop
  | call (nnn : Addr) (h : s.sp = 16) : Raises s (.call nnn) .stackOverflow 16#16
  | ret (hi : Nibble) (h : s.sp = 0) : Raises s (.ret hi) .stackUnderflow 0#16
  | drw (x y : RegIdx) (n : Nibble) (h : 0x1000 < s.i.toNat + n.toNat) :
    Raises s (.drw x y n) .memoryAccess (BitVec.ofNat 16 (max s.i.toNat 0x1000))
  | ldBVx (x : RegIdx) (h : 0x1000 < s.i.toNat + 3) :
    Raises s (.ldBVx x) .memoryAccess (BitVec.ofNat 16 (max s.i.toNat 0x1000))
  | ldMemVx (x : RegIdx) (h : 0xFFF < s.i.toNat + x.toNat) :
    Raises s (.ldMemVx x) .memoryAccess (BitVec.ofNat 16 (max s.i.toNat 0x1000))
  | ldVxMem (x : RegIdx) (h : 0xFFF < s.i.toNat + x.toNat) :
    Raises s (.ldVxMem x) .memoryAccess (BitVec.ofNat 16 (max s.i.toNat 0x1000))
  | skpVx (x : RegIdx) (h : 0xF < (s.getV x).toNat) : Raises s (.skpVx x) .keyIndex (keyInfo (s.getV x))
  | sknpVx (x : RegIdx) (h : 0xF < (s.getV x).toNat) : Raises s (.sknpVx x) .keyIndex (keyInfo (s.getV x))

/-- From `s` to `t` the sequencer stays as it is, or the instruction enters a fault it has a cause for. -/
def KeepsSequencerOrFaults (s : State) (i : Instr) (t : State) : Prop :=
  t.faulted = s.faulted ∨ ∃ cause info, Raises s i cause info ∧ t = s.enterFault cause (s.pc - 2#16) info

theorem Raises.keepsSequencerOrFaults {s : State} {i : Instr} {cause : FaultCause} {info : Word}
    (h : Raises s i cause info) :
    KeepsSequencerOrFaults s i (s.enterFault cause (s.pc - 2#16) info) :=
  Or.inr ⟨cause, info, h, rfl⟩

/-- What an instruction does to the sequencer, each one with its own row of the fault table, if it has one. -/
theorem exec_sequencer (s : State) (i : Instr) : Answers (KeepsSequencerOrFaults s i) (exec i s) := by
  cases i with
  | ret hi =>
    by_cases h : 0 < s.sp.val
    · exact answers_iff.2 ⟨_, execRet_of_pos h, Or.inl rfl⟩
    · have h0 : s.sp.val = 0 := by omega
      exact answers_iff.2 ⟨_, execRet_of_zero h0, (Raises.ret hi (Fin.ext h0)).keepsSequencerOrFaults⟩
  | call nnn =>
    by_cases h : s.sp.val < 16
    · exact answers_iff.2 ⟨_, execCall_of_lt h, Or.inl rfl⟩
    · have h16 : s.sp.val = 16 := by omega
      exact answers_iff.2 ⟨_, execCall_of_full h16, (Raises.call nnn (Fin.ext h16)).keepsSequencerOrFaults⟩
  | drw x y n => exact answers_withAccess (fun _ => Or.inl rfl) fun h => (Raises.drw x y n h).keepsSequencerOrFaults
  | ldBVx x => exact answers_withAccess (fun _ => Or.inl rfl) fun h => (Raises.ldBVx x h).keepsSequencerOrFaults
  | ldMemVx x =>
    exact answers_withAccess (fun _ => Or.inl rfl) fun h =>
      (Raises.ldMemVx x (Nat.lt_of_succ_lt_succ h)).keepsSequencerOrFaults
  | ldVxMem x =>
    exact answers_withAccess (fun _ => Or.inl rfl) fun h =>
      (Raises.ldVxMem x (Nat.lt_of_succ_lt_succ h)).keepsSequencerOrFaults
  | skpVx x =>
    exact answers_execSkpVx (fun b => Or.inl (s.skipIf_faulted b)) fun h => (Raises.skpVx x h).keepsSequencerOrFaults
  | sknpVx x =>
    exact answers_execSknpVx (fun b => Or.inl (s.skipIf_faulted b)) fun h => (Raises.sknpVx x h).keepsSequencerOrFaults
  | ldVxK x => exact answers_execLdVxK (fun _ => Or.inl rfl) (Or.inl rfl)
  | seVxKk | sneVxKk | seVxVy | sneVxVy => exact Or.inl (s.skipIf_faulted _)
  | cls | jp | jpV0Nnn | nop | ldVxKk | addVxKk | ldVxVy | orVxVy | andVxVy | xorVxVy | addVxVy | subVxVy | shrVxVy
  | subnVxVy | shlVxVy | rndVxKk | ldINnn | addIVx | ldFVx | ldVxDt | ldDtVx | ldStVx => exact Or.inl rfl

/-- A STEP into FAULTED is a fetch fault, or the fault entry of the fetched instruction, both with pc as it was before
fetch. -/
theorem step_enters_fault {s t : State} (hrun : s.faulted = false) (h : step s = .next t) (hf : t.faulted = true) :
    (0xFFE < s.pc.toNat ∧ t = s.enterFault .memoryAccess s.pc (BitVec.ofNat 16 (max s.pc.toNat 0x1000))) ∨
    ∃ i cause info, FetchesWord s (encode i) ∧ Raises (s.setPc (s.pc + 2#16)) i cause info ∧
      t = s.enterFault cause s.pc info := by
  rcases step_cases s with ⟨hfs, -⟩ | ⟨-, hpc, hstep⟩ | ⟨-, hpc, hstep⟩
  · rw [hrun] at hfs
    cases hfs
  · rw [h] at hstep
    exact Or.inl ⟨hpc, Host.Outcome.next.inj hstep⟩
  · rcases (exec_sequencer _ _).of_eq_next (hstep.symm.trans h) with hkept | ⟨cause, info, hraises, ht⟩
    · rw [hf, State.setPc_faulted, hrun] at hkept
      cases hkept
    · rw [State.setPc_pc, BitVec.add_sub_cancel] at ht
      exact Or.inr ⟨_, cause, info, fetchesWord_decode hrun hpc, hraises, ht⟩

/-- The lowest address out of range, as fault info, is that address itself. -/
theorem toNat_memoryInfo (a : Word) : (BitVec.ofNat 16 (max a.toNat 0x1000)).toNat = max a.toNat 0x1000 := by
  have := a.isLt
  rw [BitVec.toNat_ofNat]
  omega

theorem toNat_keyInfo (k : Byte) : (keyInfo k).toNat = k.toNat := BitVec.toNat_setWidth_of_le (by decide)

/-- Settles O12: fault entry from the state before fetch is precise, and each cause of an instruction is a row. -/
theorem faultsArePreciseAndListed : Obligations.FaultsArePreciseAndListed := by
  unfold Obligations.FaultsArePreciseAndListed
  intro s t hrun h hf
  rcases step_enters_fault hrun h hf with ⟨hpc, rfl⟩ | ⟨i, cause, info, hi, hraises, rfl⟩
  · exact ⟨faultEntered_enterFault s _ _ _, Or.inr (Or.inr (Or.inl ⟨rfl, hpc, toNat_memoryInfo s.pc⟩))⟩
  · refine ⟨faultEntered_enterFault s _ _ _, ?_⟩
    cases hraises with
    | call nnn hsp => exact Or.inl ⟨rfl, hsp, rfl, nnn, hi⟩
    | ret n hsp => exact Or.inr (Or.inl ⟨rfl, hsp, rfl, n, hi⟩)
    | drw x y n hI =>
      exact Or.inr (Or.inr (Or.inr (Or.inl ⟨rfl, toNat_memoryInfo s.i, Or.inl ⟨x, y, n, hi, hI⟩⟩)))
    | ldBVx x hI =>
      exact Or.inr (Or.inr (Or.inr (Or.inl ⟨rfl, toNat_memoryInfo s.i, Or.inr (Or.inl ⟨x, hi, hI⟩)⟩)))
    | ldMemVx x hI =>
      exact Or.inr (Or.inr (Or.inr (Or.inl ⟨rfl, toNat_memoryInfo s.i, Or.inr (Or.inr (Or.inl ⟨x, hi, hI⟩))⟩)))
    | ldVxMem x hI =>
      exact Or.inr (Or.inr (Or.inr (Or.inl ⟨rfl, toNat_memoryInfo s.i, Or.inr (Or.inr (Or.inr ⟨x, hi, hI⟩))⟩)))
    | skpVx x hk =>
      exact Or.inr (Or.inr (Or.inr (Or.inr ⟨rfl, x, hk, toNat_keyInfo (s.getV x), Or.inl hi⟩)))
    | sknpVx x hk =>
      exact Or.inr (Or.inr (Or.inr (Or.inr ⟨rfl, x, hk, toNat_keyInfo (s.getV x), Or.inr hi⟩)))

/-! ### FAULTED (60_exceptions.md R124, R125) -/

/-- TICK writes the two timers only (10_state.md R36). -/
theorem keeps_tick (s : State) : KeepsAllBut [.dt, .st] s (tick s) := by
  intro p hp
  cases p with
  | dt | st => exact absurd (by simp) hp
  | _ => rfl

/-- What the host can change of a FAULTED block without RESET: timers, redraw, keys and memory. -/
def HostWritable (p : Part) : Prop := p = .dt ∨ p = .st ∨ p = .redraw ∨ (∃ k, p = .key k) ∨ ∃ a, p = .mem a

theorem applyOp_keeps_of_faulted {op : HostOp} {s t : State} {answer : Response} (hop : op ≠ .reset)
    (hf : s.faulted = true) (h : applyOp op s = .next (t, answer)) : KeepsOutside HostWritable s t := by
  cases opEffect_of_applyOp h with
  | step h =>
    rw [step_faulted hf] at h
    cases h
    exact KeepsOutside.refl _ s
  | tick => exact KeepsOutside.mono (keeps_tick s) (by simp [HostWritable])
  | frameHandedOver => exact KeepsOutside.mono (keeps_clearRedraw s) (by simp [HostWritable])
  | setKeys keys => exact (keeps_setKeys s keys).mono fun p hp => Or.inr (Or.inr (Or.inr (Or.inl hp)))
  | loaded image =>
    refine (keeps_setMem_writeBytes s 0x200 image).mono ?_
    rintro p ⟨k, -, rfl⟩
    exact Or.inr (Or.inr (Or.inr (Or.inr ⟨_, rfl⟩)))
  | reset => exact absurd rfl hop
  | frameUnchanged | loadRefused | read => exact KeepsOutside.refl _ s

/-- By induction on the operations: the sequencer is among the parts that each of them keeps, so the block is still
FAULTED for the next one. -/
theorem runOps_keeps_of_faulted {ops : List HostOp} : ∀ {s u : State} {answers : List Response},
    HostOp.reset ∉ ops → s.faulted = true → runOps ops s = .next (u, answers) → KeepsOutside HostWritable s u := by
  induction ops with
  | nil =>
    intro s u answers _ _ h
    cases h
    exact KeepsOutside.refl _ s
  | cons op ops ih =>
    intro s u answers hreset hf h
    obtain ⟨hop, hops⟩ := not_or.1 (mt List.mem_cons.2 hreset)
    obtain ⟨t, r, rs, happly, hrest, -⟩ := runOps_cons_eq_next h
    have hkeeps : KeepsOutside HostWritable s t := applyOp_keeps_of_faulted (Ne.symm hop) hf happly
    have hft : t.faulted = s.faulted := hkeeps .faulted (by simp [HostWritable])
    exact hkeeps.trans (ih hops (hft.trans hf) hrest)

/-- Settles O10: STEP answers the FAULTED state itself, and no other operation but RESET reaches a kept part. -/
theorem onlyResetLeavesFaulted : Obligations.OnlyResetLeavesFaulted := by
  unfold Obligations.OnlyResetLeavesFaulted
  exact ⟨fun s => step_faulted, fun ops s t answers => runOps_keeps_of_faulted⟩

/-! ### TICK (60_exceptions.md R131) -/

theorem toNat_countDown (b : Byte) : (countDown b).toNat = b.toNat - 1 := by
  unfold countDown
  split
  · bv_omega
  · omega

/-- Settles O24, by induction on the number of TICKs. -/
theorem ticksCountDownToZero : Obligations.TicksCountDownToZero := by
  unfold Obligations.TicksCountDownToZero
  intro n
  induction n with
  | zero => exact fun s => ⟨s, [], rfl, rfl, rfl, KeepsOutside.refl _ s⟩
  | succ n ih =>
    intro s
    obtain ⟨t, answers, hrun, hdt, hst, hkeeps⟩ := ih (tick s)
    refine ⟨t, .done :: answers, ?_, ?_, ?_, KeepsOutside.trans (keeps_tick s) hkeeps⟩
    · simp only [List.replicate_succ, runOps, applyOp, hrun]
    · rw [hdt, tick_dt, toNat_countDown]
      omega
    · rw [hst, tick_st, toNat_countDown]
      omega

end Sys2Proof.Machine
end

section
/-! The end of a run (70_reset_and_hazards.md R143): a block settled at a jump to its own address is a fixed point of
STEP, and TICK writes nothing that fetch reads. -/

namespace Sys2Proof.Machine

/-- STEP executes the instruction whose encoding lies at pc. -/
theorem step_of_fetchesWord {s : State} {i : Instr} (h : FetchesWord s (encode i)) (hwf : i.wf = true) :
    step s = exec i (s.setPc (s.pc + 2#16)) := by
  have hi : decode (s.mem.readWord s.pc.toNat) = i := by rw [readWord_of_fetchesWord h, Laws.decode_encode i hwf]
  obtain ⟨hrun, hpc, -⟩ := h
  rw [step_inside hrun hpc, hi]

/-- The jump writes back the pc from before fetch, and pc is all that fetch moved. -/
theorem Settled.step_eq {s : State} (h : Settled s) : step s = .next s := by
  obtain ⟨nnn, hword, htarget⟩ := h
  calc step s = exec (.jp nnn) (s.setPc (s.pc + 2#16)) := step_of_fetchesWord hword rfl
    _ = .next ((s.setPc (s.pc + 2#16)).setPc (nnn.setWidth 16)) := rfl
    _ = .next s := by rw [htarget]; rfl

/-- Memory, pc and the sequencer are what fetch reads, and TICK writes none of them. -/
theorem Settled.tick {s : State} (h : Settled s) : Settled (tick s) := h

/-- A fixed point of a machine's step is a fixed point of each of its runs. -/
theorem run_eq_of_step_eq {M : Host.Core} {s : M.State} (h : M.step s = .next s) (n : Nat) : M.run n s = .next s := by
  induction n with
  | zero => rfl
  | succ n ih => simpa only [Host.Core.run, h] using ih

/-- Settles O36: a settled state is a fixed point of STEP, hence of any run. -/
theorem selfJumpSettles : Obligations.SelfJumpSettles := by
  unfold Obligations.SelfJumpSettles
  exact fun s h => ⟨run_eq_of_step_eq h.step_eq, h.tick⟩

end Sys2Proof.Machine
end
